-- ==== Sys2Proof/Word.lean ====
section
/-! DEFINITION. The word types of the engine: bytes, event words, the 9-bit transmit indices and the 32-bit counters.
spec/00_scope.md R14, spec/10_state.md R47. -/

namespace Sys2Proof

/-- A byte: spec/00_scope.md R14. -/
abbrev Byte := BitVec 8

/-- One 16-bit event word of the trace: spec/30_encoding.md R76. -/
abbrev EventWord := BitVec 16

/-- `tx_total` and `tx_idx`: 9 bits (spec/10_state.md R32, R33, R47). -/
abbrev TxIndex := BitVec 9

/-- A diagnostic counter: `CNT_WIDTH` = 32 bits (spec/00_scope.md R13). -/
abbrev Counter := BitVec 32

end Sys2Proof
end

