-- ==== Sys2Proof/Config.lean ====
section
/-! DEFINITION. The configuration parameters of spec/00_scope.md R7 as one record, and the free values of the model.
A model takes the parameters as arguments (R7): here they are a record that State carries and no step writes, so a
statement about every state is a statement about every configuration (log entry 1). The range check on a
configuration is `Sys2Proof.Machine.configOk` in Machine/Ops.lean. -/

namespace Sys2Proof

/-- `SNT_MODE` (spec/00_scope.md R11): when the safety-net window restarts. -/
inductive SntMode where
  /-- INTER_BYTE, the mode of this hardware (spec/41_receive.md R108). -/
  | interByte
  /-- FROM_FIRST_BYTE, the alternative a model may select (spec/41_receive.md R109). -/
  | fromFirstByte
  deriving DecidableEq, Repr

/-- `TX_CKSUM_POLICY` (spec/00_scope.md R10). `COMPAT_SENTINEL` is read only when the policy is FIXED, so it is that
constructor's argument (log entry 13). -/
inductive CksumPolicy where
  /-- XOR: the computed exclusive-or. -/
  | xor
  /-- FIXED: the constant `COMPAT_SENTINEL`. -/
  | fixed (compatSentinel : Byte)
  deriving DecidableEq, Repr

/-- The configuration of spec/00_scope.md R7. `CNT_WIDTH` is the type `Counter`. -/
structure Config where
  /-- `CFG_ENABLE` -/
  cfgEnable : Bool
  /-- `MY_ADDR`, 1..126 (R8) -/
  myAddr : Byte
  /-- `MAX_PAYLOAD`, 1..255 (R9) -/
  maxPayload : Nat
  /-- `TX_CKSUM_POLICY` and, under FIXED, `COMPAT_SENTINEL` (R10) -/
  txCksumPolicy : CksumPolicy
  /-- `SNT_WINDOW`, at least 1, in TICK events (R11) -/
  sntWindow : Nat
  /-- `SNT_MODE` (R11) -/
  sntMode : SntMode
  /-- `REQ_QUEUE_DEPTH`, at least 1 (R12) -/
  reqQueueDepth : Nat
  /-- `TX_FIFO_DEPTH`, at least 1 (R12) -/
  txFifoDepth : Nat
  /-- `ECHO` (R12) -/
  echo : Bool
  deriving DecidableEq, Repr

/-- The parameter set P0 of spec/95_test_vectors.md, the configuration of `State.reset` (DESIGN CHOICE: the
parameters R7 calls OPEN take P0's values there; log entry 1, unsafe for a statement about `State.reset` alone). -/
def Config.p0 : Config where
  cfgEnable := true
  myAddr := 0x05
  maxPayload := 250
  txCksumPolicy := .xor
  sntWindow := 3
  sntMode := .interByte
  reqQueueDepth := 4
  txFifoDepth := 2
  echo := true

/-- Free value (log entry 5, safe): the n-th unspecified byte register after a RESET event
(spec/70_reset_and_hazards.md R167). -/
opaque Config.freeByte : Nat → Byte

/-- Free value (log entry 5, safe): the n-th unspecified 9-bit register after a RESET event (R167). -/
opaque Config.freeIndex : Nat → TxIndex

/-- Free value (log entry 5, safe): the n-th unspecified `snt_count` after a RESET event (R167), brought into the
register's range 0..`SNT_WINDOW` where it is used (spec/10_state.md R27). -/
opaque Config.freeCount : Nat → Nat

end Sys2Proof
end

