-- ==== Sys2Proof/Syntax.lean ====
section
/-! DEFINITION. The input events of the engine: one constructor of `Instr` per row of spec/opcode_table.json. -/

namespace Sys2Proof

/-- `Response` (spec/00_scope.md R16): the slave→master frame the host asks the engine to send. -/
inductive Response where
  /-- EMPTY: no data, sent as the single byte 0x00 (spec/30_encoding.md R67). -/
  | empty
  /-- {mtype, len, payload}: 1 ≤ len = number of payload bytes (`Response.wf` checks both). -/
  | data (mtype : Byte) (len : Byte) (payload : List Byte)
  deriving DecidableEq, Repr

/-- The STAT selectors 0..5 (spec/30_encoding.md R81). -/
inductive StatSel where
  | frames
  | cksumErr
  | desync
  | lenErr
  | fault
  | qovf
  deriving DecidableEq, Repr

/-- The events of spec/30_encoding.md R77. -/
inductive Instr where
  /-- RXB: RX_BYTE, the received byte. -/
  | rxb (b : Byte)
  /-- TICK: one unit of the safety-net timebase. -/
  | tick
  /-- TXB: TX_BEGIN with its whole response; the ARG words of the item are its operands (R78). -/
  | txb (r : Response)
  /-- ARG: an argument word that stands outside a TXB item. It is no event of its own (R79). -/
  | arg (b : Byte)
  /-- TXS: TX_SPACE, the UART's "transmit buffer has space". -/
  | txs
  /-- LOUT: LINE_OUT, a byte left the transmit FIFO onto the line. -/
  | lout
  /-- TXD: TX_DONE, transmission complete. -/
  | txd
  /-- POP: the host takes the oldest decoded frame. -/
  | pop
  /-- STAT: the host reads one diagnostic counter. -/
  | stat (sel : StatSel)
  /-- RST: RESET. -/
  | rst
  deriving DecidableEq, Repr

end Sys2Proof
end

