-- ==== Sys2Proof/WellFormed.lean ====
section
/-! DEFINITION. Which terms of `Instr` stand for an event: the constraints spec/00_scope.md R16 puts on a `Response`.
Every other constructor takes operands whose types admit only legal values. -/

namespace Sys2Proof

/-- R16: a response with data has 1 ≤ len, and its payload is a byte sequence of length len. -/
def Response.wf : Response → Bool
  | .empty => true
  | .data _ len payload => decide (1 ≤ len.toNat) && decide (payload.length = len.toNat)

/-- A well-formed event. -/
def Instr.wf : Instr → Bool
  | .rxb _ => true
  | .tick => true
  | .txb r => r.wf
  | .arg _ => true
  | .txs => true
  | .lout => true
  | .txd => true
  | .pop => true
  | .stat _ => true
  | .rst => true

end Sys2Proof
end

