-- ==== Sys2Proof/Decode.lean ====
section
/-! DEFINITION. The event encoding of spec/30_encoding.md section 2: the decoder of the trace (total on any list of
event words, refusing by name) and, after it, the encoder written from the same table. -/

namespace Sys2Proof

/-- Why the decoder gives no event (spec/30_encoding.md R79, spec/70_reset_and_hazards.md R182). Every one is safe:
the model has no step there. -/
inductive DecodeError where
  /-- No word is left: the run has ended (R182). -/
  | endOfTrace
  /-- `kind` is 0x0 or 0xB..0xF (R79). -/
  | reservedKind
  /-- `z` is not 0 (R79). -/
  | reservedZ
  /-- `op` is not 0x00 for TICK, TXS, LOUT, TXD, POP or RST (R79). -/
  | reservedOp
  /-- STAT with `op` above 5 (R79, R81). -/
  | reservedSelector
  /-- A TX_BEGIN item cut short by the end of the trace or by a word that is no ARG word (R79). -/
  | truncatedItem
  deriving DecidableEq, Repr

/-- `w[15:12]` (R76). -/
def kindOf (w : EventWord) : BitVec 4 := w.extractLsb' 12 4

/-- `w[11:8]` (R76). -/
def zOf (w : EventWord) : BitVec 4 := w.extractLsb' 8 4

/-- `w[7:0]` (R76). -/
def opOf (w : EventWord) : Byte := w.extractLsb' 0 8

/-- The operand byte of an ARG word (match 0x4000, mask 0xFF00, R77), none for any other word. -/
def argByte (w : EventWord) : Option Byte :=
  if kindOf w = 0x4#4 ∧ zOf w = 0#4 then some (opOf w) else none

/-- The next n words as ARG words, and the words after them (R78); none where the item is cut short. -/
def takeArgs : Nat → List EventWord → Option (List Byte × List EventWord)
  | 0, ws => some ([], ws)
  | _ + 1, [] => none
  | n + 1, w :: ws =>
    match argByte w with
    | none => none
    | some b =>
      match takeArgs n ws with
      | none => none
      | some (bs, rest) => some (b :: bs, rest)

/-- The item a TXB header with `op` = n begins (R78): n = 0 is EMPTY; n ≥ 1 takes n + 1 ARG words, the messageType
and then the payload. -/
def decodeTxBegin (n : Byte) (ws : List EventWord) : Except DecodeError (Instr × List EventWord) :=
  if n = 0#8 then .ok (.txb .empty, ws)
  else
    match takeArgs (n.toNat + 1) ws with
    | some (mtype :: payload, rest) => .ok (.txb (.data mtype n payload), rest)
    | some ([], _) => .error .truncatedItem
    | none => .error .truncatedItem

/-- A STAT word's selector (R81). -/
def decodeSelector (op : Byte) : Option StatSel :=
  match op.toNat with
  | 0 => some .frames
  | 1 => some .cksumErr
  | 2 => some .desync
  | 3 => some .lenErr
  | 4 => some .fault
  | 5 => some .qovf
  | _ => none

/-- An event that takes no operand: `op` must be 0x00 (R76, R79). -/
def decodePlain (i : Instr) (op : Byte) (ws : List EventWord) : Except DecodeError (Instr × List EventWord) :=
  if op = 0#8 then .ok (i, ws) else .error .reservedOp

/-- The event of one header word whose `z` is 0 (R77). A header of kind 0x4 is an argument word outside an item: it
is given as `arg`, which has no step (R79, log entry 10). -/
def decodeKind (kind : Nat) (op : Byte) (ws : List EventWord) : Except DecodeError (Instr × List EventWord) :=
  match kind with
  | 0x1 => .ok (.rxb op, ws)
  | 0x2 => decodePlain .tick op ws
  | 0x3 => decodeTxBegin op ws
  | 0x4 => .ok (.arg op, ws)
  | 0x5 => decodePlain .txs op ws
  | 0x6 => decodePlain .lout op ws
  | 0x7 => decodePlain .txd op ws
  | 0x8 => decodePlain .pop op ws
  | 0x9 =>
    match decodeSelector op with
    | some sel => .ok (.stat sel, ws)
    | none => .error .reservedSelector
  | 0xA => decodePlain .rst op ws
  | _ => .error .reservedKind

/-- Whether a `kind` names an event (R77, R79). -/
def kindIsEvent (kind : Nat) : Bool := decide (1 ≤ kind) && decide (kind ≤ 0xA)

/-- The trace decoder: the first event of a list of event words, and the words after its item (R76 to R79). Where a
word is reserved for more than one reason, the kind is named first, then `z` (log entry 11). -/
def decode (words : List EventWord) : Except DecodeError (Instr × List EventWord) :=
  match words with
  | [] => .error .endOfTrace
  | w :: ws =>
    if kindIsEvent (kindOf w).toNat = false then .error .reservedKind
    else if zOf w ≠ 0#4 then .error .reservedZ
    else decodeKind (kindOf w).toNat (opOf w) ws

/-- A whole trace as its events, at most `fuel` of them; an error where some item has no event. -/
def decodeTrace (fuel : Nat) (words : List EventWord) : Except DecodeError (List Instr) :=
  match fuel, words with
  | _, [] => .ok []
  | 0, _ :: _ => .error .endOfTrace
  | fuel + 1, w :: ws =>
    match decode (w :: ws) with
    | .error e => .error e
    | .ok (i, rest) =>
      match decodeTrace fuel rest with
      | .error e => .error e
      | .ok is => .ok (i :: is)

/-- An event word from its fields, `z` = 0 (R76). -/
def eventWord (kind : BitVec 4) (op : Byte) : EventWord := BitVec.ofNat 16 (kind.toNat * 0x1000 + op.toNat)

/-- The selector codes (R81). -/
def selectorCode : StatSel → Byte
  | .frames => 0
  | .cksumErr => 1
  | .desync => 2
  | .lenErr => 3
  | .fault => 4
  | .qovf => 5

/-- The words of an event (R77, R78). -/
def encode : Instr → List EventWord
  | .rxb b => [eventWord 0x1#4 b]
  | .tick => [eventWord 0x2#4 0]
  | .txb .empty => [eventWord 0x3#4 0]
  | .txb (.data mtype len payload) => eventWord 0x3#4 len :: (mtype :: payload).map (eventWord 0x4#4)
  | .arg b => [eventWord 0x4#4 b]
  | .txs => [eventWord 0x5#4 0]
  | .lout => [eventWord 0x6#4 0]
  | .txd => [eventWord 0x7#4 0]
  | .pop => [eventWord 0x8#4 0]
  | .stat sel => [eventWord 0x9#4 (selectorCode sel)]
  | .rst => [eventWord 0xA#4 0]

/-- How many words the longest item has: a TXB header with n = 255 and its 256 ARG words (R78). -/
def longestItem : Nat := 257

/-- The words of an instruction whose bits are w, numbered as spec/opcode_table.json numbers them: the first word is
bits 15..0, the second bits 31..16, and so on. Bits from nbits up are 0, as far as the longest item. -/
def tableWords (nbits w : Nat) : List EventWord :=
  (List.range longestItem).map fun i => BitVec.ofNat 16 ((w % 2 ^ nbits) / 2 ^ (16 * i))

/-- The event this decoder reads from the instruction whose bits are w. -/
def decodeTableWord (nbits w : Nat) : Option Instr :=
  match decode (tableWords nbits w) with
  | .ok (i, _) => some i
  | .error _ => none

end Sys2Proof
end

