-- ==== Sys2Proof/Machine/State.lean ====
section
/-! DEFINITION. The machine's state as plain data (spec/10_state.md), the reasons a step stops, and the state after
power-on. -/

namespace Sys2Proof.Machine

/-- The receive state register's 3-bit codes (spec/30_encoding.md R80; spec/10_state.md R19). -/
inductive RxState where
  /-- code 0 -/
  | idle
  /-- code 1 -/
  | awType
  /-- code 2 -/
  | awLen
  /-- code 3; the n of AwaitingPayloadByte(n) is `rx_rem` -/
  | awPayload
  /-- code 4 -/
  | awCksum
  /-- code 5, inside a step only -/
  | frameReady
  /-- code 6, inside a step only -/
  | error
  /-- code 7, never produced -/
  | reserved
  deriving DecidableEq, Repr

/-- `BusDirection` (spec/10_state.md R29). -/
inductive Dir where
  /-- 0 -/
  | receive
  /-- 1 -/
  | transmit
  deriving DecidableEq, Repr

/-- A decoded master→slave frame (spec/00_scope.md R16; spec/40_codec.md R95). It holds no checksum. -/
structure Frame where
  addr : Byte
  mtype : Byte
  len : Byte
  payload : List Byte
  deriving DecidableEq, Repr

/-- A payload buffer: its bytes as (index, byte) pairs, indices strictly rising, none equal to `Memory.unlisted`, what
an unlisted index reads as (log entry 6). -/
abbrev Memory := List Host.Cell

/-- Which payload buffer an access goes to (spec/20_memory.md R48). -/
inductive Buffer where
  | rxBuf
  | txBuf
  deriving DecidableEq, Repr

/-- The receive registers of `decodeStep` (spec/40_codec.md R87; spec/10_state.md R19 to R26). -/
structure RxRegs where
  /-- `rx_state` -/
  state : RxState
  /-- `rx_addr` -/
  addr : Byte
  /-- `rx_type` -/
  mtype : Byte
  /-- `rx_len` -/
  len : Byte
  /-- `rx_rem` -/
  rem : Byte
  /-- `rx_xor` -/
  acc : Byte
  /-- `rx_buf` -/
  buf : Memory
  deriving DecidableEq, Repr

/-- The safety-net timer (spec/10_state.md R27). -/
structure Snt where
  /-- `snt_armed` -/
  armed : Bool
  /-- `snt_count` -/
  count : Nat
  deriving DecidableEq, Repr

/-- The TxJob (spec/10_state.md R30 to R34). -/
structure TxJob where
  /-- `tx_active` -/
  active : Bool
  /-- `tx_type` -/
  mtype : Byte
  /-- `tx_len` -/
  len : Byte
  /-- `tx_buf` -/
  buf : Memory
  /-- `tx_total` -/
  total : TxIndex
  /-- `tx_idx` -/
  idx : TxIndex
  /-- `echo_pending` -/
  echoPending : Bool
  deriving DecidableEq, Repr

/-- The diagnostic counters, "a single stats struct" (spec/10_state.md R35). -/
structure Stats where
  /-- `cnt_frames`, selector 0 -/
  frames : Counter
  /-- `cnt_cksum_err`, selector 1 -/
  cksumErr : Counter
  /-- `cnt_desync`, selector 2 -/
  desync : Counter
  /-- `cnt_len_err`, selector 3 -/
  lenErr : Counter
  /-- `cnt_fault`, selector 4 -/
  fault : Counter
  /-- `cnt_qovf`, selector 5 -/
  qovf : Counter
  deriving DecidableEq, Repr

/-- The value of the output port `txb_status` (spec/10_state.md R40). -/
inductive TxbStatus where
  | accepted
  | rejected
  deriving DecidableEq, Repr

/-- A value a step emits on an output port (spec/00_scope.md R15 `Emit`; spec/10_state.md R40). The fourth port, `de`,
is continuous and is read off `dir`. -/
inductive Output where
  /-- `txb_status`, returned by TX_BEGIN -/
  | txbStatus (v : TxbStatus)
  /-- `pop_result`, returned by POP: NONE or a frame -/
  | popResult (v : Option Frame)
  /-- `stat_value`, returned by STAT -/
  | statValue (v : Counter)
  deriving DecidableEq, Repr

/-- The state: spec/10_state.md sections 2 to 6, and the model's own fields `cfg`, `trace` and `free`. -/
structure State where
  /-- The configuration (spec/00_scope.md R7): fixed, no step writes it. The model's own field (log entry 1). -/
  cfg : Config
  /-- The receive registers. -/
  rx : RxRegs
  /-- The safety-net timer. -/
  snt : Snt
  /-- `rx_en` (R28) -/
  rxEn : Bool
  /-- `dir` (R29) -/
  dir : Dir
  /-- The TxJob. -/
  tx : TxJob
  /-- The diagnostic counters. -/
  cnt : Stats
  /-- `rq`, head first (R37) -/
  rq : List Frame
  /-- `utx_fifo`, head first (R38) -/
  utxFifo : List Byte
  /-- `bus_out`, oldest first (R39) -/
  busOut : List Byte
  /-- The values emitted on the output ports, oldest first (R40; log entry 3). -/
  outputs : List Output
  /-- The event words not yet delivered. The model's own field (log entry 2). -/
  trace : List EventWord
  /-- How many free values have been drawn. The model's own field (log entry 5). -/
  free : Nat
  deriving DecidableEq, Repr

/-- Why a step stops with a fault. It cannot happen from a state that meets the invariant of spec/10_state.md R41, and
it is safe (log entry 19). -/
inductive Fault where
  /-- A buffer access outside 0..`MAX_PAYLOAD`-1, an index that does not exist (spec/20_memory.md R48, R53, R54).
  Raised by `memRead` and `memWrite`: RXB in AW_PAYLOAD and AW_CKSUM, and TXS. Safe: the model stops. -/
  | bufferIndex (which : Buffer) (index : Nat)
  deriving DecidableEq, Repr

/-- Why an event has no step (`refuse`, spec/00_scope.md R15). All are safe: the model stops. -/
inductive Refusal where
  /-- An instruction with no meaning yet. Raised by `exec` alone; no arm does so any more. Safe. -/
  | notModelled (mnemonic : String)
  /-- The next words of the trace are no event (spec/30_encoding.md R79) or there is none (R182). Raised by the
  fetch. Safe. -/
  | noEvent (why : DecodeError)
  /-- An ARG word outside a TX_BEGIN item (R79). Raised by ARG. Safe. -/
  | strayArg
  /-- TX_SPACE where `tx_active` = 0 or the FIFO is full (spec/42_transmit.md R122). Raised by TXS. Safe. -/
  | txSpaceNotEnabled
  /-- LINE_OUT where the FIFO is empty (R123). Raised by LOUT. Safe. -/
  | lineOutNotEnabled
  /-- TX_DONE where the job is not finished (R125). Raised by TXD. Safe. -/
  | txDoneNotEnabled
  /-- A configuration outside its ranges has no run (spec/00_scope.md R7, R8). Raised by the fetch. Safe. -/
  | badConfig
  deriving DecidableEq, Repr

/-- The result of a step. -/
abbrev Result := Host.Outcome State Fault Refusal

/-- The six counters at 0. -/
def Stats.zero : Stats := ⟨0, 0, 0, 0, 0, 0⟩

/-- The state RESET gives (spec/70_reset_and_hazards.md R167, R168) for a configuration: the values of
spec/10_state.md, and 0 in the registers and in every payload buffer byte it gives none for (DESIGN CHOICE, unsafe:
log entries 4 and 6). -/
def State.resetWith (c : Config) : State where
  cfg := c
  rx := ⟨.idle, 0, 0, 0, 0, 0, []⟩
  snt := ⟨false, 0⟩
  rxEn := true
  dir := .receive
  tx := ⟨false, 0, 0, [], 0, 0, false⟩
  cnt := Stats.zero
  rq := []
  utxFifo := []
  busOut := []
  outputs := []
  trace := []
  free := 0

/-- The machine right after power-on, configured as P0 (log entry 1). -/
def State.reset : State := State.resetWith Config.p0

end Sys2Proof.Machine
end

