-- ==== Sys2Proof/Machine/Ops.lean ====
section
/-! DEFINITION. The shared operations: the payload buffers, the queues, `Emit`, `raise` (the engine's one way of
taking an error, spec/00_scope.md R15 and spec/60_exceptions.md R144), the free values, the configuration check and
the fetch of the next event. -/

namespace Sys2Proof.Machine

/-! ### Payload buffers (spec/20_memory.md R48, R53, R54) -/

/-- What an unlisted index of a payload buffer reads as. The spec gives the bytes no value at power-on
(spec/10_state.md R26, R31): DESIGN CHOICE, unsafe, log entry 6. -/
def Memory.unlisted : Byte := 0x00

/-- The byte at an index. -/
def Memory.read : Memory → Nat → Byte
  | [], _ => Memory.unlisted
  | (a, b) :: rest, i => if a = i then b else Memory.read rest i

/-- The list with one entry put in its place, over an entry of the same index. -/
def Memory.insert : Memory → Nat → Byte → Memory
  | [], i, b => [(i, b)]
  | (a, c) :: rest, i, b =>
    if i < a then (i, b) :: (a, c) :: rest
    else if i = a then (i, b) :: rest
    else (a, c) :: Memory.insert rest i b

/-- The buffer with one byte written, in canonical form: writing what an unlisted index reads as leaves the index
unlisted. -/
def Memory.write (m : Memory) (i : Nat) (b : Byte) : Memory :=
  if b = Memory.unlisted then m.filter fun c => decide (c.1 ≠ i) else Memory.insert m i b

/-- The bytes written from an index on, in order: `for k: buf[i + k] <- bytes[k]`. -/
def Memory.writeFrom : Memory → Nat → List Byte → Memory
  | m, _, [] => m
  | m, i, b :: bs => Memory.writeFrom (Memory.write m i b) (i + 1) bs

/-- The canonical form: indices strictly rising, and no entry equal to what an unlisted index reads as. -/
def Memory.wf (m : Memory) : Bool :=
  decide (m.Pairwise fun x y => x.1 < y.1) && m.all fun x => decide (x.2 ≠ Memory.unlisted)

/-- `MemRead(buf, i, 1)` (spec/00_scope.md R15) on the buffer of `MAX_PAYLOAD` bytes. -/
def memRead (which : Buffer) (maxPayload : Nat) (m : Memory) (i : Nat) : Except Fault Byte :=
  if i < maxPayload then .ok (Memory.read m i) else .error (.bufferIndex which i)

/-- `MemWrite(buf, i, 1, b)` (spec/00_scope.md R15) on the buffer of `MAX_PAYLOAD` bytes. -/
def memWrite (which : Buffer) (maxPayload : Nat) (m : Memory) (i : Nat) (b : Byte) : Except Fault Memory :=
  if i < maxPayload then .ok (Memory.write m i b) else .error (.bufferIndex which i)

/-- `[buf[i], ..., buf[i + n - 1]]`. -/
def memReadRange (which : Buffer) (maxPayload : Nat) (m : Memory) : Nat → Nat → Except Fault (List Byte)
  | _, 0 => .ok []
  | i, n + 1 =>
    match memRead which maxPayload m i with
    | .error f => .error f
    | .ok b =>
      match memReadRange which maxPayload m (i + 1) n with
      | .error f => .error f
      | .ok bs => .ok (b :: bs)

/-! ### Errors (spec/60_exceptions.md R144) -/

/-- The error taxonomy of R144. -/
inductive EngineError where
  | checksum
  | length
  | desync
  | txMisuse
  | queueFull
  deriving DecidableEq, Repr

/-- The spec's error codes (R144). No state holds them. -/
def EngineError.code : EngineError → Nat
  | .checksum => 1
  | .length => 2
  | .desync => 3
  | .txMisuse => 4
  | .queueFull => 5

/-- The counter an error increments (R144), modulo 2^32 (spec/10_state.md R36). -/
def Stats.count (c : Stats) : EngineError → Stats
  | .checksum => { c with cksumErr := c.cksumErr + 1 }
  | .length => { c with lenErr := c.lenErr + 1 }
  | .desync => { c with desync := c.desync + 1 }
  | .txMisuse => { c with fault := c.fault + 1 }
  | .queueFull => { c with qovf := c.qovf + 1 }

/-- `raise E()`: increment the error's counter; no control transfer, the step goes on (spec/00_scope.md R15). -/
def raise (e : EngineError) (s : State) : State := { s with cnt := s.cnt.count e }

/-! ### Receive state, queue and output ports -/

/-- `fsm <- S` (spec/00_scope.md R15). With S = IDLE it is the return of spec/60_exceptions.md R160: from FRAME_READY
or ERROR to IDLE inside the step that reached it. -/
def setFsm (x : RxState) (s : State) : State := { s with rx := { s.rx with state := x } }

/-- `Enqueue(rq, f)`: at the tail (spec/10_state.md R37). -/
def enqueue (f : Frame) (s : State) : State := { s with rq := s.rq ++ [f] }

/-- `PushFifo(b)`: at the tail of `utx_fifo` (spec/10_state.md R38). -/
def pushFifo (b : Byte) (s : State) : State := { s with utxFifo := s.utxFifo ++ [b] }

/-- `Emit(port, v)` (spec/00_scope.md R15). -/
def emit (o : Output) (s : State) : State := { s with outputs := s.outputs ++ [o] }

/-! ### Free values and buffers of free values -/

/-- n free bytes, from the k-th on (log entry 5). -/
def freeBytes (k n : Nat) : List Byte := (List.range n).map fun i => Config.freeByte (k + i)

/-- A payload buffer whose n bytes are unspecified (spec/70_reset_and_hazards.md R167): a free value in each, from
the k-th on. -/
def freeBuffer (k n : Nat) : Memory := Memory.writeFrom [] 0 (freeBytes k n)

/-! ### Configuration and fetch -/

/-- The ranges of spec/00_scope.md R7 to R12; a configuration outside them is refused. -/
def configOk (c : Config) : Bool :=
  decide (1 ≤ c.myAddr.toNat) && decide (c.myAddr.toNat ≤ 126) && decide (1 ≤ c.maxPayload) &&
    decide (c.maxPayload ≤ 255) && decide (1 ≤ c.sntWindow) && decide (1 ≤ c.reqQueueDepth) &&
    decide (1 ≤ c.txFifoDepth)

/-- The next event of the trace and the state with its item taken off the trace. A configuration outside its ranges
has no run (spec/00_scope.md R7); words that are no event have no step (spec/30_encoding.md R79). -/
def fetch (s : State) : Except Refusal (Instr × State) :=
  if configOk s.cfg then
    match decode s.trace with
    | .error e => .error (.noEvent e)
    | .ok (i, rest) => .ok (i, { s with trace := rest })
  else .error .badConfig

/-- The state with an instruction's words, as `tableWords` lays them out, as the whole of the trace. -/
def placeWords (s : State) (nbits w : Nat) : State := { s with trace := tableWords nbits w }

end Sys2Proof.Machine
end

