-- ==== Sys2Proof/Machine/Operands.lean ====
section
/-! DEFINITION. The operands of the events and what they name: the address byte and the filter, the length of a
response, the counter a selector reads, the numeric codes of the receive states, and the agent that issues each
event. -/

namespace Sys2Proof.Machine

/-- The agents (spec/00_scope.md R5; the Platform issues RESET, spec/30_encoding.md R77). -/
inductive Agent where
  | uart
  | bus
  | timebase
  | host
  | platform
  deriving DecidableEq, Repr

/-- The "issued by" column of spec/30_encoding.md R77. -/
def issuedBy : Instr → Agent
  | .rxb _ => .bus
  | .tick => .timebase
  | .txb _ => .host
  | .arg _ => .host
  | .txs => .uart
  | .lout => .uart
  | .txd => .uart
  | .pop => .host
  | .stat _ => .host
  | .rst => .platform

/-- The classes of the bus address space (spec/20_memory.md R49). -/
inductive AddressClass where
  | broadcast
  | slave
  | unassigned
  deriving DecidableEq, Repr

/-- R49, spec/30_encoding.md R74: 0 is broadcast, 1..126 are slaves, 127..255 are assigned to nothing. -/
def addressClass (a : Byte) : AddressClass :=
  if a.toNat = 0 then .broadcast else if a.toNat ≤ 126 then .slave else .unassigned

/-- The address filter (spec/41_receive.md R106). -/
def accept (c : Config) (a : Byte) : Bool := decide (a = c.myAddr) || decide (a = 0#8)

/-- `R.len` (spec/00_scope.md R16): 0 for EMPTY. -/
def responseLen : Response → Byte
  | .empty => 0
  | .data _ len _ => len

/-- The counter of a STAT selector (spec/44_host.md R138; spec/30_encoding.md R81). -/
def statValueOf (c : Stats) : StatSel → Counter
  | .frames => c.frames
  | .cksumErr => c.cksumErr
  | .desync => c.desync
  | .lenErr => c.lenErr
  | .fault => c.fault
  | .qovf => c.qovf

/-- The numeric code of `rx_state` (spec/30_encoding.md R80). -/
def rxStateCode : RxState → BitVec 3
  | .idle => 0
  | .awType => 1
  | .awLen => 2
  | .awPayload => 3
  | .awCksum => 4
  | .frameReady => 5
  | .error => 6
  | .reserved => 7

/-- "held between events" of spec/30_encoding.md R80 and spec/10_state.md R20. -/
def heldBetweenEvents : RxState → Bool
  | .idle => true
  | .awType => true
  | .awLen => true
  | .awPayload => true
  | .awCksum => true
  | .frameReady => false
  | .error => false
  | .reserved => false

end Sys2Proof.Machine
end

