-- ==== Sys2Proof/Machine/HostCommands.lean ====
section
/-! DEFINITION. POP and STAT (spec/44_host.md). -/

namespace Sys2Proof.Machine

/-- POP (R137). -/
def execPop (s : State) : Result :=
  match s.rq with
  | [] => .next (emit (.popResult none) s)
  | f :: rest => .next (emit (.popResult (some f)) { s with rq := rest })

/-- STAT (R138). -/
def execStat (sel : StatSel) (s : State) : Result := .next (emit (.statValue (statValueOf s.cnt sel)) s)

end Sys2Proof.Machine
end

