-- ==== Sys2Proof/Machine/Direction.lean ====
section
/-! DEFINITION. The bus direction controller (spec/43_direction.md): the only operations that write `dir`. -/

namespace Sys2Proof.Machine

/-- `enableTransmit()` (R131). -/
def enableTransmit (s : State) : State := { s with dir := .transmit }

/-- `enableReceive()` (R132). -/
def enableReceive (s : State) : State := { s with dir := .receive }

/-- The output `de` (R135): 1 when `dir` = TRANSMIT. -/
def State.de (s : State) : Bool :=
  match s.dir with
  | .receive => false
  | .transmit => true

end Sys2Proof.Machine
end

