-- ==== Sys2Proof/Machine/Reset.lean ====
section
/-! DEFINITION. RESET (spec/70_reset_and_hazards.md R167). -/

namespace Sys2Proof.Machine

/-- The receive registers after RESET: IDLE, the others and every byte of `rx_buf` unspecified, so free values (log
entry 5). -/
def resetRx (c : Config) (k : Nat) : RxRegs where
  state := .idle
  addr := Config.freeByte k
  mtype := Config.freeByte (k + 1)
  len := Config.freeByte (k + 2)
  rem := Config.freeByte (k + 3)
  acc := Config.freeByte (k + 4)
  buf := freeBuffer (k + 7) c.maxPayload

/-- The safety-net timer after RESET: disarmed, `snt_count` unspecified within 0..`SNT_WINDOW`
(spec/10_state.md R27). -/
def resetSnt (c : Config) (k : Nat) : Snt := ⟨false, Config.freeCount k % (c.sntWindow + 1)⟩

/-- The TxJob after RESET: not active, no echo pending, the others and every byte of `tx_buf` unspecified (log
entry 5). -/
def resetTx (c : Config) (k : Nat) : TxJob where
  active := false
  mtype := Config.freeByte (k + 5)
  len := Config.freeByte (k + 6)
  buf := freeBuffer (k + 7 + c.maxPayload) c.maxPayload
  total := Config.freeIndex k
  idx := Config.freeIndex (k + 1)
  echoPending := false

/-- RST: RESET (R167). `bus_out` is an observation and is not cleared; nor are the emitted values (log entry 3). -/
def execRst (s : State) : Result :=
  .next (enableReceive { s with
    rx := resetRx s.cfg s.free
    snt := resetSnt s.cfg s.free
    rxEn := true
    tx := resetTx s.cfg s.free
    cnt := Stats.zero
    rq := []
    utxFifo := []
    free := s.free + (7 + 2 * s.cfg.maxPayload) })

end Sys2Proof.Machine
end

