-- ==== Sys2Proof/Machine/Codec.lean ====
section
/-! DEFINITION. The Frame Codec (spec/40_codec.md): checksum, `decodeStep`, the slave→master encoder and its
byte-at-a-time form `tx_byte`, and the reference encoder of master→slave frames. -/

namespace Sys2Proof.Machine

/-- `xor8` (R84): the exclusive-or of all bytes, folded from 0x00. -/
def xor8 (bytes : List Byte) : Byte := bytes.foldl (fun x b => x ^^^ b) 0#8

/-- `cksS2M` (R86). -/
def cksS2M (c : Config) (mtype n : Byte) (payload : List Byte) : Byte :=
  match c.txCksumPolicy with
  | .xor => xor8 ([n, mtype] ++ payload)
  | .fixed compatSentinel => compatSentinel

/-- `Outcome` (spec/00_scope.md R16): the result of one decode step. -/
inductive Decoded where
  /-- NONE -/
  | pending
  | ready (f : Frame)
  | errLength
  | errChecksum
  deriving DecidableEq, Repr

/-- `decodeStep` in IDLE (R88). -/
def decodeAddress (r : RxRegs) (b : Byte) : RxRegs × Decoded :=
  ({ r with addr := b, acc := b, state := .awType }, .pending)

/-- `decodeStep` in AW_TYPE (R89). -/
def decodeType (r : RxRegs) (b : Byte) : RxRegs × Decoded :=
  ({ r with mtype := b, acc := r.acc ^^^ b, state := .awLen }, .pending)

/-- `decodeStep` in AW_LEN (R90). -/
def decodeLength (c : Config) (r : RxRegs) (b : Byte) : RxRegs × Decoded :=
  if b = 0#8 then
    ({ r with len := b, acc := r.acc ^^^ b, state := .frameReady }, .ready ⟨r.addr, r.mtype, 0, []⟩)
  else if c.maxPayload < b.toNat then
    ({ r with len := b, acc := r.acc ^^^ b, state := .error }, .errLength)
  else ({ r with len := b, acc := r.acc ^^^ b, rem := b, state := .awPayload }, .pending)

/-- `decodeStep` in AW_PAYLOAD (R91): the byte goes to index `rx_len - rx_rem`. -/
def decodePayload (c : Config) (r : RxRegs) (b : Byte) : Except Fault (RxRegs × Decoded) :=
  match memWrite .rxBuf c.maxPayload r.buf (r.len - r.rem).toNat b with
  | .error f => .error f
  | .ok m =>
    if 1 < r.rem.toNat then .ok ({ r with buf := m, acc := r.acc ^^^ b, rem := r.rem - 1 }, .pending)
    else .ok ({ r with buf := m, acc := r.acc ^^^ b, rem := 0, state := .awCksum }, .pending)

/-- `decodeStep` in AW_CKSUM (R92). The check is the XOR under every policy. -/
def decodeChecksum (c : Config) (r : RxRegs) (b : Byte) : Except Fault (RxRegs × Decoded) :=
  if b = r.acc then
    match memReadRange .rxBuf c.maxPayload r.buf 0 r.len.toNat with
    | .error f => .error f
    | .ok payload => .ok ({ r with state := .frameReady }, .ready ⟨r.addr, r.mtype, r.len, payload⟩)
  else .ok ({ r with state := .error }, .errChecksum)

/-- `decodeStep(r, b)` (R87 to R92). A register that held FRAME_READY, ERROR or code 7 goes to IDLE with no outcome
(R93; log entry 7). -/
def decodeStep (c : Config) (r : RxRegs) (b : Byte) : Except Fault (RxRegs × Decoded) :=
  match r.state with
  | .idle => .ok (decodeAddress r b)
  | .awType => .ok (decodeType r b)
  | .awLen => .ok (decodeLength c r b)
  | .awPayload => decodePayload c r b
  | .awCksum => decodeChecksum c r b
  | .frameReady => .ok ({ r with state := .idle }, .pending)
  | .error => .ok ({ r with state := .idle }, .pending)
  | .reserved => .ok ({ r with state := .idle }, .pending)

/-- The receive registers after the FRAME_READY or ERROR exit of RX_BYTE (spec/41_receive.md R103): `fsm <- IDLE`
unless the outcome is NONE. -/
def exitToIdle (r : RxRegs) : Decoded → RxRegs
  | .pending => r
  | .ready _ => { r with state := .idle }
  | .errLength => { r with state := .idle }
  | .errChecksum => { r with state := .idle }

/-- Feeding bytes to `decodeStep` one by one, with the return to IDLE between them, and the outcome of each. -/
def decodeBytes (c : Config) : RxRegs → List Byte → Except Fault (RxRegs × List Decoded)
  | r, [] => .ok (r, [])
  | r, b :: bs =>
    match decodeStep c r b with
    | .error f => .error f
    | .ok (r', o) =>
      match decodeBytes c (exitToIdle r' o) bs with
      | .error f => .error f
      | .ok (r'', os) => .ok (r'', o :: os)

/-- `encodeS2M` (R96, R97). A response of length 0 is EMPTY whatever type it carries (R96). -/
def encodeS2M (c : Config) : Response → List Byte
  | .empty => [0x00#8]
  | .data mtype n payload => if n = 0#8 then [0x00#8] else [n, mtype] ++ payload ++ [cksS2M c mtype n payload]

/-- `tx_byte(i)` (R98): byte i of the response held in `tx_type`, `tx_len`, `tx_buf`. -/
def txByte (c : Config) (j : TxJob) (i : Nat) : Except Fault Byte :=
  if j.len = 0#8 then .ok 0x00#8
  else if i = 0 then .ok j.len
  else if i = 1 then .ok j.mtype
  else if i ≤ j.len.toNat + 1 then memRead .txBuf c.maxPayload j.buf (i - 2)
  else
    match memReadRange .txBuf c.maxPayload j.buf 0 j.len.toNat with
    | .error f => .error f
    | .ok payload => .ok (cksS2M c j.mtype j.len payload)

/-- `encodeM2S` (R99), a reference function: the master→slave frame of spec/30_encoding.md R66. -/
def encodeM2S (addr mtype : Byte) (payload : List Byte) : List Byte :=
  match payload with
  | [] => [addr, mtype, 0x00#8]
  | b :: bs =>
    let covered := [addr, mtype, BitVec.ofNat 8 (b :: bs).length] ++ (b :: bs)
    covered ++ [xor8 covered]

end Sys2Proof.Machine
end

