-- ==== Sys2Proof/Machine/Flags.lean ====
section
/-! DEFINITION. The status bits (spec/10_state.md R44: the engine has no condition codes): the safety-net window's
`snt_armed`, and the conditions on status bits and FIFO levels under which the UART's events are enabled
(spec/60_exceptions.md R153). -/

namespace Sys2Proof.Machine

/-- `SafetyNetAfterByte(prev, now)`: INTER_BYTE as spec/41_receive.md R108, FROM_FIRST_BYTE as R109. -/
def sntAfterByte (c : Config) (prev now : RxState) (t : Snt) : Snt :=
  if now = .idle then { t with armed := false }
  else
    match c.sntMode with
    | .interByte => ⟨true, c.sntWindow⟩
    | .fromFirstByte => if prev = .idle then ⟨true, c.sntWindow⟩ else t

/-- TX_SPACE is enabled iff `tx_active` = 1 and the FIFO is not full (spec/42_transmit.md R122). -/
def txSpaceEnabled (s : State) : Bool := s.tx.active && decide (s.utxFifo.length < s.cfg.txFifoDepth)

/-- TX_DONE is enabled iff `tx_active` = 1, `tx_idx` = `tx_total` and the FIFO is empty (spec/42_transmit.md R125). -/
def txDoneEnabled (s : State) : Bool := s.tx.active && decide (s.tx.idx = s.tx.total) && s.utxFifo.isEmpty

/-- Whether TX_BEGIN is misuse (spec/42_transmit.md R119): a job in flight, `dir` = TRANSMIT, or too long. -/
def txBeginMisuse (s : State) (len : Byte) : Bool :=
  s.tx.active || decide (s.dir = .transmit) || decide (s.cfg.maxPayload < len.toNat)

end Sys2Proof.Machine
end

