-- ==== Sys2Proof/Machine/Receive.lean ====
section
/-! DEFINITION. RX_BYTE and TICK: the receive state machine, the address filter, the hand-off and the safety net
(spec/41_receive.md). -/

namespace Sys2Proof.Machine

/-- `Deliver(f)` (R105, R107). -/
def deliver (f : Frame) (s : State) : State :=
  if s.rq.length < s.cfg.reqQueueDepth then enqueue f s else raise .queueFull s

/-- `cnt_frames <- cnt_frames + 1` (R103). -/
def countFrame (s : State) : State := { s with cnt := { s.cnt with frames := s.cnt.frames + 1 } }

/-- The FRAME_READY or ERROR exit of RX_BYTE (R103, R104, R106). -/
def rxExit (o : Decoded) (s : State) : State :=
  match o with
  | .pending => s
  | .ready f => setFsm .idle (if accept s.cfg f.addr then deliver f (countFrame s) else countFrame s)
  | .errLength => setFsm .idle (raise .length s)
  | .errChecksum => setFsm .idle (raise .checksum s)

/-- `SafetyNetAfterByte` as a step on the state (R108, R109). -/
def safetyNetAfterByte (prev : RxState) (s : State) : State :=
  { s with snt := sntAfterByte s.cfg prev s.rx.state s.snt }

/-- `RxAccept(B)` (R103). -/
def rxAccept (b : Byte) (s : State) : Result :=
  match decodeStep s.cfg s.rx b with
  | .error f => .fault f
  | .ok (r, o) => .next (safetyNetAfterByte s.rx.state (rxExit o { s with rx := r }))

/-- `RX_BYTE(B)` (R102): discarded where the engine is disabled or `rx_en` = 0. -/
def rxByte (b : Byte) (s : State) : Result :=
  if s.cfg.cfgEnable = false then .next s
  else if s.rxEn = false then .next s
  else rxAccept b s

/-- RXB. -/
def execRxb (b : Byte) (s : State) : Result := rxByte b s

/-- `SafetyNetFire()` (R111). -/
def safetyNetFire (s : State) : State :=
  raise .desync { s with rx := { s.rx with state := .idle }, snt := { s.snt with armed := false } }

/-- TICK (R110). -/
def execTick (s : State) : Result :=
  if s.cfg.cfgEnable = false then .next s
  else if s.snt.armed then
    if s.snt.count - 1 = 0 then .next (safetyNetFire { s with snt := { s.snt with count := s.snt.count - 1 } })
    else .next { s with snt := { s.snt with count := s.snt.count - 1 } }
  else .next s

end Sys2Proof.Machine
end

