-- ==== Sys2Proof/Machine/Transmit.lean ====
section
/-! DEFINITION. TX_BEGIN, TX_SPACE, LINE_OUT and TX_DONE (spec/42_transmit.md), and the argument word outside an item
(spec/30_encoding.md R79). -/

namespace Sys2Proof.Machine

/-- `Load()` (R121), at most `fuel` turns of its loop. -/
def loadLoop : Nat → State → Except Fault State
  | 0, s => .ok s
  | fuel + 1, s =>
    if s.tx.idx.toNat < s.tx.total.toNat ∧ s.utxFifo.length < s.cfg.txFifoDepth then
      match txByte s.cfg s.tx s.tx.idx.toNat with
      | .error f => .error f
      | .ok b => loadLoop fuel { pushFifo b s with tx := { s.tx with idx := s.tx.idx + 1 } }
    else .ok s

/-- `Load()` (R121). Every turn raises `tx_idx` by 1 and stops at `tx_total`, so the turns left bound the loop
(log entry 15). -/
def load (s : State) : Except Fault State := loadLoop (s.tx.total.toNat - s.tx.idx.toNat) s

/-- The TxJob registers an accepted response is written to (R120). -/
def setResponse (r : Response) (j : TxJob) : TxJob :=
  match r with
  | .empty => { j with len := 0 }
  | .data mtype len payload =>
    { j with mtype := mtype, len := len, buf := Memory.writeFrom j.buf 0 (payload.take len.toNat) }

/-- `tx_total <- (tx_len == 0) ? 1 : tx_len + 3` (R120, spec/10_state.md R32), in 9 bits. -/
def txTotalOf (len : Byte) : TxIndex := if len = 0#8 then 1 else len.setWidth 9 + 3

/-- The TxJob an accepted TX_BEGIN creates (R120). -/
def startJob (c : Config) (r : Response) (j : TxJob) : TxJob :=
  { setResponse r j with total := txTotalOf (responseLen r), idx := 0, echoPending := c.echo, active := true }

/-- `TxAccept(R)` (R120). -/
def txAccept (r : Response) (s : State) : Result :=
  match load (enableTransmit { s with tx := startJob s.cfg r s.tx, rxEn := false }) with
  | .error f => .fault f
  | .ok t => .next (emit (.txbStatus .accepted) t)

/-- TXB: TX_BEGIN (R118, R119). -/
def execTxb (r : Response) (s : State) : Result :=
  if s.cfg.cfgEnable = false then .next (emit (.txbStatus .rejected) s)
  else if txBeginMisuse s (responseLen r) then .next (emit (.txbStatus .rejected) (raise .txMisuse s))
  else txAccept r s

/-- ARG outside a TX_BEGIN item: illegal, no step (spec/30_encoding.md R79). -/
def execArg (_b : Byte) (_s : State) : Result := .refused .strayArg

/-- TXS: TX_SPACE (R122). -/
def execTxs (s : State) : Result :=
  if txSpaceEnabled s then
    match load s with
    | .error f => .fault f
    | .ok t => .next t
  else .refused .txSpaceNotEnabled

/-- LOUT: LINE_OUT (R123). With ECHO the byte returns on the receive line as an RX_BYTE inside this step (R124). -/
def execLout (s : State) : Result :=
  match s.utxFifo with
  | [] => .refused .lineOutNotEnabled
  | b :: rest =>
    if s.cfg.echo then rxByte b { s with utxFifo := rest, busOut := s.busOut ++ [b] }
    else .next { s with utxFifo := rest, busOut := s.busOut ++ [b] }

/-- TXD: TX_DONE, in the order (1) clear the TxJob, (2) drain the echo, (3) release the bus and re-arm reception
(R125). -/
def execTxd (s : State) : Result :=
  if txDoneEnabled s then
    .next { enableReceive { s with tx := { s.tx with active := false, echoPending := false } } with rxEn := true }
  else .refused .txDoneNotEnabled

end Sys2Proof.Machine
end

