-- ==== Sys2Proof/Machine/Dispatch.lean ====
section
/-! DEFINITION. The dispatch of an event to its meaning, one arm per constructor. -/

namespace Sys2Proof.Machine

def exec (i : Instr) (s : State) : Host.Outcome State Fault Refusal :=
  match i with
  | .rxb b => Sys2Proof.Machine.execRxb b s
  | .tick => Sys2Proof.Machine.execTick s
  | .txb r => Sys2Proof.Machine.execTxb r s
  | .arg b => Sys2Proof.Machine.execArg b s
  | .txs => Sys2Proof.Machine.execTxs s
  | .lout => Sys2Proof.Machine.execLout s
  | .txd => Sys2Proof.Machine.execTxd s
  | .pop => Sys2Proof.Machine.execPop s
  | .stat sel => Sys2Proof.Machine.execStat sel s
  | .rst => Sys2Proof.Machine.execRst s

end Sys2Proof.Machine
end

