-- ==== Sys2Proof/Machine/Step.lean ====
section
/-! DEFINITION. One step: fetch the next event of the trace and process it atomically (spec/00_scope.md R6). -/

namespace Sys2Proof.Machine

/-- One event, one step. -/
def step (s : State) : Host.Outcome State Fault Refusal :=
  match fetch s with
  | .error r => .refused r
  | .ok (i, t) => exec i t

/-- The state whose very next step runs the instruction whose bits are w (spec/opcode_table.json numbering): its words
are the trace (log entry 2). -/
def State.withFetchWord (s : State) (nbits w : Nat) : State := placeWords s nbits w

end Sys2Proof.Machine
end

