-- ==== Sys2Proof/Machine/Trace.lean ====
section
/-! DEFINITION. The trace assembler (spec/30_encoding.md R82, R83): the lines of the trace syntax and their words, the
macros and their expansions, and the reading of a trace's text. No step uses it: it turns a written trace into the
event words of `State.trace`. -/

namespace Sys2Proof.Machine

/-- A line of the trace syntax (R82), numbers as written. -/
inductive Line where
  | rx (b : Nat)
  | tick
  | txbeginEmpty
  | txbegin (mtype : Nat) (payload : List Nat)
  | txspace
  | lineout
  | txdone
  | pop
  | stat (s : Nat)
  | reset
  deriving DecidableEq, Repr

/-- A line or a macro (R83). -/
inductive Source where
  | line (l : Line)
  | mframe (a t : Nat) (payload : List Nat)
  | mpoll (a t : Nat)
  | mbcast (t : Nat) (payload : List Nat)
  | mbad (a t : Nat) (payload : List Nat) (c : Nat)
  | ticks (k : Nat)
  deriving DecidableEq, Repr

/-- A number as a byte; a number above 255 is none. -/
def byteOf (n : Nat) : Option Byte := if n < 256 then some (BitVec.ofNat 8 n) else none

/-- Numbers as bytes; none where one is above 255. -/
def bytesOf : List Nat → Option (List Byte)
  | [] => some []
  | n :: ns =>
    match byteOf n, bytesOf ns with
    | some b, some bs => some (b :: bs)
    | _, _ => none

/-- One word with an operand byte. -/
def operandWord (kind : BitVec 4) (n : Nat) : Option (List EventWord) := (byteOf n).map fun b => [eventWord kind b]

/-- The word or words of a line (R82). `txbegin T, []` is refused: a response with a messageType has at least one
payload byte. -/
def lineWords : Line → Option (List EventWord)
  | .rx b => operandWord 0x1#4 b
  | .tick => some [eventWord 0x2#4 0]
  | .txbeginEmpty => some [eventWord 0x3#4 0]
  | .txbegin _ [] => none
  | .txbegin t (p :: ps) =>
    match byteOf (p :: ps).length, bytesOf (t :: p :: ps) with
    | some n, some args => some (eventWord 0x3#4 n :: args.map (eventWord 0x4#4))
    | _, _ => none
  | .txspace => some [eventWord 0x5#4 0]
  | .lineout => some [eventWord 0x6#4 0]
  | .txdone => some [eventWord 0x7#4 0]
  | .pop => some [eventWord 0x8#4 0]
  | .stat s => operandWord 0x9#4 s
  | .reset => some [eventWord 0xA#4 0]

/-- The frame of `mframe` with n ≥ 1 but for its checksum byte: A, T, n, the payload (R83). -/
def frameBody (a t : Nat) (payload : List Nat) : List Nat := [a, t, payload.length] ++ payload

/-- The lines a macro stands for (R83). -/
def expand : Source → List Line
  | .line l => [l]
  | .mframe a t [] => [.rx a, .rx t, .rx 0x00]
  | .mframe a t (p :: ps) =>
    (frameBody a t (p :: ps)).map .rx ++ [.rx (xor8 ((frameBody a t (p :: ps)).map (BitVec.ofNat 8))).toNat]
  | .mpoll a t => [.rx a, .rx t, .rx 0x00]
  | .mbcast t [] => [.rx 0x00, .rx t, .rx 0x00]
  | .mbcast t (p :: ps) =>
    (frameBody 0x00 t (p :: ps)).map .rx ++
      [.rx (xor8 ((frameBody 0x00 t (p :: ps)).map (BitVec.ofNat 8))).toNat]
  | .mbad a t payload c => (frameBody a t payload).map .rx ++ [.rx c]
  | .ticks k => List.replicate k .tick

/-- The words of lines, in order. -/
def linesWords : List Line → Option (List EventWord)
  | [] => some []
  | l :: ls =>
    match lineWords l, linesWords ls with
    | some ws, some rest => some (ws ++ rest)
    | _, _ => none

/-- The words of a trace with macros. `mbad` is for n ≥ 1 (R83). -/
def assemble : List Source → Option (List EventWord)
  | [] => some []
  | .mbad _ _ [] _ :: _ => none
  | x :: xs =>
    match linesWords (expand x), assemble xs with
    | some ws, some rest => some (ws ++ rest)
    | _, _ => none

/-! ### Reading the text -/

/-- The tokens of one line of text. -/
inductive Token where
  | atom (cs : List Char)
  | comma
  | lbracket
  | rbracket
  deriving DecidableEq, Repr

/-- The atom gathered so far (last character first), if any, before the tokens that follow. -/
def flushAtom (acc : List Char) (rest : List Token) : List Token :=
  match acc with
  | [] => rest
  | _ :: _ => .atom acc.reverse :: rest

/-- The tokens of a line; `;` starts a comment (R82). -/
def tokenize : List Char → List Char → List Token
  | acc, [] => flushAtom acc []
  | acc, c :: cs =>
    if c = ';' then flushAtom acc []
    else if c = ' ' ∨ c = '\t' ∨ c = '\r' then flushAtom acc (tokenize [] cs)
    else if c = ',' then flushAtom acc (.comma :: tokenize [] cs)
    else if c = '[' then flushAtom acc (.lbracket :: tokenize [] cs)
    else if c = ']' then flushAtom acc (.rbracket :: tokenize [] cs)
    else tokenize (c :: acc) cs

/-- A digit's value below the base. -/
def digitOf (base : Nat) (c : Char) : Option Nat :=
  let n := c.toNat
  let v :=
    if 48 ≤ n ∧ n ≤ 57 then n - 48
    else if 65 ≤ n ∧ n ≤ 70 then n - 55
    else if 97 ≤ n ∧ n ≤ 102 then n - 87
    else base
  if v < base then some v else none

/-- The number of a run of digits, after the value read so far. -/
def digitsOf (base : Nat) : Nat → List Char → Option Nat
  | acc, [] => some acc
  | acc, c :: cs =>
    match digitOf base c with
    | some d => digitsOf base (acc * base + d) cs
    | none => none

/-- A number in hexadecimal `0xNN` or decimal (R82). -/
def numeral : List Char → Option Nat
  | [] => none
  | ['0', 'x'] => none
  | '0' :: 'x' :: ds => digitsOf 16 0 ds
  | ds => digitsOf 10 0 ds

/-- The items of a bracketed list with at least one, and the tokens after its bracket. -/
def parseItems : List Token → Option (List Nat × List Token)
  | .atom a :: .rbracket :: rest => (numeral a).map fun n => ([n], rest)
  | .atom a :: .comma :: rest =>
    match numeral a, parseItems rest with
    | some n, some (ns, rest') => some (n :: ns, rest')
    | _, _ => none
  | _ => none

/-- A bracketed list after its opening bracket. -/
def parseList : List Token → Option (List Nat × List Token)
  | .rbracket :: rest => some ([], rest)
  | ts => parseItems ts

/-- One line's tokens as a line or a macro; no tokens are a blank line. -/
def parseTokens (ts : List Token) : Option (List Source) :=
  match ts with
  | [] => some []
  | [.atom w] =>
    if w = "tick".toList then some [.line .tick]
    else if w = "txspace".toList then some [.line .txspace]
    else if w = "lineout".toList then some [.line .lineout]
    else if w = "txdone".toList then some [.line .txdone]
    else if w = "pop".toList then some [.line .pop]
    else if w = "reset".toList then some [.line .reset]
    else none
  | [.atom w, .atom x] =>
    if w = "rx".toList then (numeral x).map fun b => [.line (.rx b)]
    else if w = "stat".toList then (numeral x).map fun n => [.line (.stat n)]
    else if w = "ticks".toList then (numeral x).map fun k => [.ticks k]
    else if w = "txbegin".toList ∧ x = "empty".toList then some [.line .txbeginEmpty]
    else none
  | [.atom w, .atom x, .comma, .atom y] =>
    if w = "mpoll".toList then
      match numeral x, numeral y with
      | some a, some t => some [.mpoll a t]
      | _, _ => none
    else none
  | .atom w :: .atom x :: .comma :: .lbracket :: rest =>
    match numeral x, parseList rest with
    | some t, some (p, []) =>
      if w = "txbegin".toList then some [.line (.txbegin t p)]
      else if w = "mbcast".toList then some [.mbcast t p]
      else none
    | _, _ => none
  | .atom w :: .atom x :: .comma :: .atom y :: .comma :: .lbracket :: rest =>
    match numeral x, numeral y, parseList rest with
    | some a, some t, some (p, []) => if w = "mframe".toList then some [.mframe a t p] else none
    | some a, some t, some (p, [.comma, .atom z]) =>
      if w = "mbad".toList then (numeral z).map fun c => [.mbad a t p c] else none
    | _, _, _ => none
  | _ => none

/-- The lines of a text, its last characters first gathered in `acc`. -/
def splitLines : List Char → List Char → List (List Char)
  | acc, [] => [acc.reverse]
  | acc, c :: cs => if c = '\n' then acc.reverse :: splitLines [] cs else splitLines (c :: acc) cs

/-- The lines of a text as lines and macros; none where one cannot be read. -/
def parseLines : List (List Char) → Option (List Source)
  | [] => some []
  | l :: ls =>
    match parseTokens (tokenize [] l), parseLines ls with
    | some xs, some rest => some (xs ++ rest)
    | _, _ => none

/-- A trace's text as its event words. -/
def assembleText (text : List Char) : Option (List EventWord) :=
  match parseLines (splitLines [] text) with
  | some xs => assemble xs
  | none => none

end Sys2Proof.Machine
end

