-- ==== Sys2Proof/Safety.lean ====
section
/-! DEFINITION. The notions claims are stated in: running several events, the invariant of spec/10_state.md R41, the
quiescent state, the response a TxJob holds, when an event is enabled, and when two states differ only in registers the
spec calls unspecified. -/

namespace Sys2Proof.Machine

/-- The events in order, stopping at the first fault or refusal. -/
def execAll : List Instr → State → Result
  | [], s => .next s
  | i :: is, s =>
    match exec i s with
    | .next t => execAll is t
    | .fault f => .fault f
    | .refused r => .refused r

/-- Bytes arriving one after another: one RX_BYTE each. -/
def rxEvents (bytes : List Byte) : List Instr := bytes.map .rxb

/-- k TICK events (spec/30_encoding.md R83 `ticks k`). -/
def tickEvents (k : Nat) : List Instr := List.replicate k .tick

/-- A quiescent state (spec/70_reset_and_hazards.md R182). -/
def State.quiescent (s : State) : Bool :=
  !s.tx.active && s.utxFifo.isEmpty && decide (s.rx.state = .idle)

/-- Whether an event has a step (spec/60_exceptions.md R153, spec/44_host.md R141): the UART's three events only under
their conditions, an argument word outside an item never, every other event always. -/
def enabled (s : State) : Instr → Bool
  | .rxb _ => true
  | .tick => true
  | .txb _ => true
  | .arg _ => false
  | .txs => s.tx.active && decide (s.utxFifo.length < s.cfg.txFifoDepth)
  | .lout => !s.utxFifo.isEmpty
  | .txd => s.tx.active && decide (s.tx.idx = s.tx.total) && s.utxFifo.isEmpty
  | .pop => true
  | .stat _ => true
  | .rst => true

/-- How many payload bytes of the frame being received are in `rx_buf` (spec/10_state.md R24, R26). -/
def RxRegs.received (r : RxRegs) : Nat :=
  match r.state with
  | .awPayload => r.len.toNat - r.rem.toNat
  | .awCksum => r.len.toNat
  | _ => 0

/-- spec/10_state.md R41, its items in order. -/
structure R41 (s : State) : Prop where
  /-- item 1 -/
  activeIffTransmit : s.tx.active = true ↔ s.dir = .transmit
  /-- item 1 -/
  activeIffRxOff : s.tx.active = true ↔ s.rxEn = false
  /-- item 2 -/
  fifoOnlyInJob : s.utxFifo ≠ [] → s.tx.active = true
  /-- item 3 -/
  idxLeTotal : s.tx.active = true → s.tx.idx.toNat ≤ s.tx.total.toNat
  /-- item 3 -/
  fifoLeIdx : s.tx.active = true → s.utxFifo.length ≤ s.tx.idx.toNat
  /-- item 3 -/
  fifoBytes : s.tx.active = true → ∀ k : Nat, ∀ b : Byte, s.utxFifo[k]? = some b →
    txByte s.cfg s.tx (s.tx.idx.toNat - s.utxFifo.length + k) = .ok b
  /-- item 4 -/
  payloadState : s.rx.state = .awPayload →
    1 ≤ s.rx.rem.toNat ∧ s.rx.rem.toNat ≤ s.rx.len.toNat ∧ s.rx.len.toNat ≤ s.cfg.maxPayload
  /-- item 5 -/
  cksumState : s.rx.state = .awCksum → 1 ≤ s.rx.len.toNat ∧ s.rx.len.toNat ≤ s.cfg.maxPayload
  /-- item 6 -/
  armedIffBusy : s.snt.armed = true ↔ s.rx.state ≠ .idle
  /-- item 6 -/
  countInWindow : s.snt.armed = true → 1 ≤ s.snt.count ∧ s.snt.count ≤ s.cfg.sntWindow
  /-- item 7 -/
  queueBound : s.rq.length ≤ s.cfg.reqQueueDepth
  /-- item 7 -/
  fifoBound : s.utxFifo.length ≤ s.cfg.txFifoDepth
  /-- item 8 -/
  echoOnlyInJob : s.tx.echoPending = true → s.tx.active = true ∧ s.cfg.echo = true

/-- The invariant of the engine: R41, and what its other rules say of a state between two events. -/
structure Inv (s : State) : Prop where
  /-- The configuration is in its ranges (spec/00_scope.md R7). -/
  config : configOk s.cfg = true
  /-- R41 -/
  r41 : R41 s
  /-- spec/10_state.md R20: only the five held states. -/
  held : heldBetweenEvents s.rx.state = true
  /-- The buffers are in canonical form. -/
  rxCanonical : Memory.wf s.rx.buf = true
  /-- The buffers are in canonical form. -/
  txCanonical : Memory.wf s.tx.buf = true
  /-- spec/10_state.md R31: a job's response has at most `MAX_PAYLOAD` payload bytes. -/
  txLen : s.tx.active = true → s.tx.len.toNat ≤ s.cfg.maxPayload
  /-- spec/10_state.md R32: `tx_total`. -/
  txTotal : s.tx.active = true → s.tx.total.toNat = if s.tx.len = 0#8 then 1 else s.tx.len.toNat + 3
  /-- spec/00_scope.md R16, spec/41_receive.md R106: a queued frame has the payload its length says and was
  accepted. -/
  frames : ∀ f ∈ s.rq, f.payload.length = f.len.toNat ∧ f.len.toNat ≤ s.cfg.maxPayload ∧
    (f.addr = s.cfg.myAddr ∨ f.addr = 0#8)

/-- `rx_xor` is the XOR of every byte of the current frame received so far (spec/10_state.md R25). -/
def XorTracksFrame (r : RxRegs) : Prop :=
  match r.state with
  | .awType => r.acc = xor8 [r.addr]
  | .awLen => r.acc = xor8 [r.addr, r.mtype]
  | .awPayload => ∃ p : List Byte, p.length = r.received ∧ (∀ k : Nat, ∀ b, p[k]? = some b → Memory.read r.buf k = b) ∧
      r.acc = xor8 ([r.addr, r.mtype, r.len] ++ p)
  | .awCksum => ∃ p : List Byte, p.length = r.received ∧ (∀ k : Nat, ∀ b, p[k]? = some b → Memory.read r.buf k = b) ∧
      r.acc = xor8 ([r.addr, r.mtype, r.len] ++ p)
  | _ => True

/-- The TxJob registers hold a response (spec/10_state.md R31, R32). -/
def HoldsResponse (s : State) (r : Response) : Prop :=
  r.wf = true ∧ (responseLen r).toNat ≤ s.cfg.maxPayload ∧ s.tx.len = responseLen r ∧
    s.tx.total.toNat = (encodeS2M s.cfg r).length ∧
    match r with
    | .empty => True
    | .data mtype _ payload =>
      s.tx.mtype = mtype ∧ ∀ k : Nat, ∀ b, payload[k]? = some b → Memory.read s.tx.buf k = b

/-- A disabled engine in the state RESET gives (spec/70_reset_and_hazards.md R169): the registers R167 gives a
value. -/
structure DisabledAtReset (s : State) : Prop where
  off : s.cfg.cfgEnable = false
  idle : s.rx.state = .idle
  disarmed : s.snt.armed = false
  rxOn : s.rxEn = true
  receiving : s.dir = .receive
  noJob : s.tx.active = false
  noEcho : s.tx.echoPending = false
  counters : s.cnt = Stats.zero
  noFrames : s.rq = []
  noBytes : s.utxFifo = []

/-- Two states that differ at most in registers whose value no rule reads (spec/70_reset_and_hazards.md R167,
spec/93_implementation_defined.md I13, I14): the receive registers of a frame that has not written them,
`snt_count` while disarmed, the TxJob registers while no job is in flight, and `free`. -/
structure SameButUnread (s t : State) : Prop where
  cfg : s.cfg = t.cfg
  rxState : s.rx.state = t.rx.state
  rxAddr : s.rx.state ≠ .idle → s.rx.addr = t.rx.addr ∧ s.rx.acc = t.rx.acc
  rxType : s.rx.state = .awLen ∨ s.rx.state = .awPayload ∨ s.rx.state = .awCksum → s.rx.mtype = t.rx.mtype
  rxLen : s.rx.state = .awPayload ∨ s.rx.state = .awCksum → s.rx.len = t.rx.len
  rxRem : s.rx.state = .awPayload → s.rx.rem = t.rx.rem
  rxBuf : ∀ k < s.rx.received, Memory.read s.rx.buf k = Memory.read t.rx.buf k
  armed : s.snt.armed = t.snt.armed
  count : s.snt.armed = true → s.snt.count = t.snt.count
  rxEn : s.rxEn = t.rxEn
  dir : s.dir = t.dir
  active : s.tx.active = t.tx.active
  txLen : s.tx.active = true → s.tx.len = t.tx.len
  txType : s.tx.active = true → s.tx.len ≠ 0#8 → s.tx.mtype = t.tx.mtype
  txBuf : s.tx.active = true → ∀ k < s.tx.len.toNat, Memory.read s.tx.buf k = Memory.read t.tx.buf k
  txTotal : s.tx.active = true → s.tx.total = t.tx.total
  txIdx : s.tx.active = true → s.tx.idx = t.tx.idx
  echo : s.tx.echoPending = t.tx.echoPending
  cnt : s.cnt = t.cnt
  rq : s.rq = t.rq
  utxFifo : s.utxFifo = t.utxFifo
  busOut : s.busOut = t.busOut
  outputs : s.outputs = t.outputs
  trace : s.trace = t.trace

/-- Two results of a step that agree: both a next state, the states differing only in registers no rule reads, or the
same stop. -/
def SameResult : Result → Result → Prop
  | .next s, .next t => SameButUnread s t
  | .fault f, .fault g => f = g
  | .refused a, .refused b => a = b
  | _, _ => False

end Sys2Proof.Machine
end

