-- ==== Sys2Proof/Certificates/Slice0/Obligations.lean ====
section
/-! DEFINITION. The statements for the provers, one definition each, from the numbered rules of spec/. -/

open Sys2Proof Sys2Proof.Machine

/-! ### Encoding and fetch (spec/30_encoding.md) -/

/-- Words written out from spec/30_encoding.md R77, R78 and spec/95_test_vectors.md ENC-1 to ENC-10. Two clauses hold
the model's own choices: that a stray ARG word, which R79 and ENC-9 refuse, decodes to the term `arg` is log entry 10
(`exec` refuses that term in every state), and that the word 0xF123, reserved by its kind and its `z`, is refused
under the name of its kind is log entry 11. The names of the refusals are the model's. -/
def Obligations.EventWordsOfTheTableDecode : Prop :=
  decode [0x10AA] = .ok (.rxb 0xAA, []) ∧
  decode [0x2000] = .ok (.tick, []) ∧
  decode [0x3000] = .ok (.txb .empty, []) ∧
  decode [0x3002, 0x4001, 0x40AA, 0x40BB] = .ok (.txb (.data 0x01 2 [0xAA, 0xBB]), []) ∧
  decode [0x4001] = .ok (.arg 0x01, []) ∧
  decode [0x5000] = .ok (.txs, []) ∧
  decode [0x6000] = .ok (.lout, []) ∧
  decode [0x7000] = .ok (.txd, []) ∧
  decode [0x8000] = .ok (.pop, []) ∧
  decode [0x9005] = .ok (.stat .qovf, []) ∧
  decode [0xA000] = .ok (.rst, []) ∧
  decode [0x0000] = .error .reservedKind ∧
  decode [0xB000] = .error .reservedKind ∧
  decode [0xF123] = .error .reservedKind ∧
  decode [0x1100] = .error .reservedZ ∧
  decode [0x2001] = .error .reservedOp ∧
  decode [0x8001] = .error .reservedOp ∧
  decode [0x9006] = .error .reservedSelector ∧
  decode [0x3002, 0x4001, 0x40AA, 0x2000] = .error .truncatedItem

/-- Every well-formed event's words decode to it, with every operand at every value, and the words after its item are
left. -/
def Obligations.DecodeOfEncodeIsTheEvent : Prop :=
  ∀ i : Instr, i.wf = true → ∀ rest : List EventWord, decode (encode i ++ rest) = .ok (i, rest)

/-- Whatever decodes is well formed and its words are exactly the encoder's: no reserved bit is accepted. -/
def Obligations.DecodedWordsAreTheEncoding : Prop :=
  ∀ (ws rest : List EventWord) (i : Instr), decode ws = .ok (i, rest) → i.wf = true ∧ ws = encode i ++ rest

/-- R78: the item a TXB header begins, its length told by the header alone, one atomic step for the whole item, an ARG
word anywhere else illegal, and an item longer than `MAX_PAYLOAD` rejected when executed. -/
def Obligations.TxBeginItemTakesItsArguments : Prop :=
  (∀ rest : List EventWord, decode (eventWord 0x3#4 0 :: rest) = .ok (.txb .empty, rest)) ∧
  (∀ (n mtype : Byte) (payload : List Byte) (rest : List EventWord), n ≠ 0#8 → payload.length = n.toNat →
    decode (eventWord 0x3#4 n :: ((mtype :: payload).map (eventWord 0x4#4) ++ rest)) =
      .ok (.txb (.data mtype n payload), rest)) ∧
  (∀ r : Response, r.wf = true →
    (encode (.txb r)).length = if responseLen r = 0#8 then 1 else (responseLen r).toNat + 2) ∧
  (∀ (s : State) (r : Response) (rest : List EventWord), configOk s.cfg = true → r.wf = true →
    s.trace = encode (.txb r) ++ rest → step s = exec (.txb r) { s with trace := rest }) ∧
  (∀ (s : State) (b : Byte) (rest : List EventWord), configOk s.cfg = true → s.trace = eventWord 0x4#4 b :: rest →
    step s = .refused .strayArg) ∧
  (∀ (s : State) (r : Response) (rest : List EventWord), configOk s.cfg = true → r.wf = true →
    s.trace = encode (.txb r) ++ rest → s.cfg.maxPayload < (responseLen r).toNat →
    ∃ t, step s = .next t ∧ t.outputs = s.outputs ++ [.txbStatus .rejected] ∧ t.tx = s.tx)

/-- R79: the words a trace decoder refuses have no step. -/
def Obligations.ReservedWordsHaveNoStep : Prop :=
  (∀ (s : State) (w : EventWord) (rest : List EventWord), s.trace = w :: rest →
    ((kindOf w = 0x0#4 ∨ 0xB ≤ (kindOf w).toNat) ∨ zOf w ≠ 0#4 ∨
      (opOf w ≠ 0#8 ∧ kindOf w ∈ [0x2#4, 0x5#4, 0x6#4, 0x7#4, 0x8#4, 0xA#4]) ∨
      (kindOf w = 0x9#4 ∧ 5 < (opOf w).toNat) ∨ kindOf w = 0x4#4) →
    ∃ r, step s = .refused r) ∧
  (∀ (s : State) (n : Byte) (rest : List EventWord), s.trace = eventWord 0x3#4 n :: rest → n ≠ 0#8 →
    (¬ ∃ (args : List Byte) (tail : List EventWord), args.length = n.toNat + 1 ∧
      rest = args.map (eventWord 0x4#4) ++ tail) →
    ∃ r, step s = .refused r) ∧
  (∀ rest : List EventWord, decode (0x5000 :: rest) = .ok (.txs, rest) ∧ decode (0x6000 :: rest) = .ok (.lout, rest) ∧
    decode (0x7000 :: rest) = .ok (.txd, rest)) ∧
  (∀ (s : State) (i : Instr), i = .txs ∨ i = .lout ∨ i = .txd → enabled s i = false → ∃ r, exec i s = .refused r)

/-- The fetch: a step runs the event the trace begins with, with its item taken off the trace; no other step is
taken. -/
def Obligations.StepRunsTheDecodedEvent : Prop :=
  (∀ (s : State) (i : Instr) (rest : List EventWord), configOk s.cfg = true → decode s.trace = .ok (i, rest) →
    step s = exec i { s with trace := rest }) ∧
  (∀ (s : State) (e : DecodeError), configOk s.cfg = true → decode s.trace = .error e →
    step s = .refused (.noEvent e))

/-- R8 (and R7's other ranges): a configuration outside its ranges has no run, and none is ever changed. -/
def Obligations.ConfigurationIsCheckedAndFixed : Prop :=
  (∀ s : State, (s.cfg.myAddr = 0#8 ∨ 126 < s.cfg.myAddr.toNat ∨ s.cfg.maxPayload = 0 ∨ 255 < s.cfg.maxPayload ∨
      s.cfg.sntWindow = 0 ∨ s.cfg.reqQueueDepth = 0 ∨ s.cfg.txFifoDepth = 0) → step s = .refused .badConfig) ∧
  (∀ (i : Instr) (s t : State), exec i s = .next t → t.cfg = s.cfg) ∧
  (∀ s t : State, step s = .next t → t.cfg = s.cfg)

/-- R80: the numeric codes of `rx_state`, the states held between events, and that no event produces code 7. -/
def Obligations.ReceiveStateCodes : Prop :=
  rxStateCode .idle = 0 ∧ rxStateCode .awType = 1 ∧ rxStateCode .awLen = 2 ∧ rxStateCode .awPayload = 3 ∧
  rxStateCode .awCksum = 4 ∧ rxStateCode .frameReady = 5 ∧ rxStateCode .error = 6 ∧ rxStateCode .reserved = 7 ∧
  (∀ x : RxState, heldBetweenEvents x = true ↔ (rxStateCode x).toNat ≤ 4) ∧
  (∀ (i : Instr) (s t : State), s.rx.state ≠ .reserved → exec i s = .next t → t.rx.state ≠ .reserved)

/-- R99: the reference encoder of master→slave frames, and that the `mframe` macro of R83 writes its bytes' words. -/
def Obligations.MframeIsTheReferenceEncoder : Prop :=
  (∀ a t : Byte, encodeM2S a t [] = [a, t, 0x00]) ∧
  (∀ (a t : Byte) (p : List Byte), p ≠ [] → p.length ≤ 255 →
    encodeM2S a t p =
      [a, t, BitVec.ofNat 8 p.length] ++ p ++ [xor8 ([a, t, BitVec.ofNat 8 p.length] ++ p)]) ∧
  ∀ (a t : Byte) (payload : List Byte), payload.length ≤ 255 →
    assemble [.mframe a.toNat t.toNat (payload.map (·.toNat))] =
      some ((encodeM2S a t payload).map (eventWord 0x1#4))

/-! ### Codec (spec/40_codec.md) -/

/-- R84: `xor8` folds from 0x00, is order-independent and self-inverse. -/
def Obligations.XorChecksumLaws : Prop :=
  xor8 [] = 0x00 ∧
  (∀ (s : List Byte) (b : Byte), xor8 (s ++ [b]) = xor8 s ^^^ b) ∧
  (∀ s t : List Byte, s.Perm t → xor8 s = xor8 t) ∧
  (∀ s : List Byte, xor8 (s ++ [xor8 s]) = 0x00) ∧
  xor8 [0x05, 0x01, 0x02, 0xAA, 0xBB] = 0x17

/-- R86, R96, R97: the slave→master encoder under both checksum policies. -/
def Obligations.SlaveFrameEncoding : Prop :=
  (∀ c : Config, encodeS2M c .empty = [0x00]) ∧
  (∀ (c : Config) (mtype n : Byte) (p : List Byte), n ≠ 0#8 → c.txCksumPolicy = .xor →
    encodeS2M c (.data mtype n p) = [n, mtype] ++ p ++ [xor8 ([n, mtype] ++ p)]) ∧
  (∀ (c : Config) (mtype n sentinel : Byte) (p : List Byte), n ≠ 0#8 → c.txCksumPolicy = .fixed sentinel →
    encodeS2M c (.data mtype n p) = [n, mtype] ++ p ++ [sentinel]) ∧
  (∀ (c : Config) (mtype : Byte) (p : List Byte), encodeS2M c (.data mtype 0 p) = [0x00])

/-- R98: the bytes `tx_byte(0)`, ..., `tx_byte(tx_total - 1)` are the encoding of the held response. -/
def Obligations.TxBytesAreTheEncodedResponse : Prop :=
  ∀ (s : State) (r : Response), HoldsResponse s r → ∀ (i : Nat) (b : Byte),
    (encodeS2M s.cfg r)[i]? = some b → i < s.tx.total.toNat ∧ txByte s.cfg s.tx i = .ok b

/-- R88 at the machine: every byte value taken in IDLE is the address. -/
def Obligations.IdleByteIsTheAddress : Prop :=
  ∀ (s : State) (b : Byte), s.cfg.cfgEnable = true → s.rxEn = true → s.rx.state = .idle →
    decodeStep s.cfg s.rx b = .ok ({ s.rx with addr := b, acc := b, state := .awType }, .pending) ∧
    exec (.rxb b) s = .next { s with
      rx := { s.rx with addr := b, acc := b, state := .awType }
      snt := ⟨true, s.cfg.sntWindow⟩ }

/-- R89 at the machine: every byte value taken in AW_TYPE is the messageType. -/
def Obligations.TypeByteIsStored : Prop :=
  ∀ (s : State) (b : Byte), s.cfg.cfgEnable = true → s.rxEn = true → s.rx.state = .awType →
    decodeStep s.cfg s.rx b = .ok ({ s.rx with mtype := b, acc := s.rx.acc ^^^ b, state := .awLen }, .pending) ∧
    exec (.rxb b) s = .next { s with
      rx := { s.rx with mtype := b, acc := s.rx.acc ^^^ b, state := .awLen }
      snt := if s.cfg.sntMode = .interByte then ⟨true, s.cfg.sntWindow⟩ else s.snt }

/-- R90 at the machine: the length byte's three cases. -/
def Obligations.LengthByteCases : Prop :=
  ∀ (s : State) (b : Byte), s.cfg.cfgEnable = true → s.rxEn = true → s.rx.state = .awLen →
    (b = 0#8 →
      decodeStep s.cfg s.rx b = .ok ({ s.rx with len := b, acc := s.rx.acc ^^^ b, state := .frameReady },
        .ready ⟨s.rx.addr, s.rx.mtype, 0, []⟩)) ∧
    (b ≠ 0#8 → s.cfg.maxPayload < b.toNat →
      decodeStep s.cfg s.rx b = .ok ({ s.rx with len := b, acc := s.rx.acc ^^^ b, state := .error }, .errLength) ∧
      exec (.rxb b) s = .next { s with
        rx := { s.rx with len := b, acc := s.rx.acc ^^^ b, state := .idle }
        snt := { s.snt with armed := false }
        cnt := { s.cnt with lenErr := s.cnt.lenErr + 1 } }) ∧
    (b ≠ 0#8 → b.toNat ≤ s.cfg.maxPayload →
      decodeStep s.cfg s.rx b = .ok
        ({ s.rx with len := b, acc := s.rx.acc ^^^ b, rem := b, state := .awPayload }, .pending) ∧
      exec (.rxb b) s = .next { s with
        rx := { s.rx with len := b, acc := s.rx.acc ^^^ b, rem := b, state := .awPayload }
        snt := if s.cfg.sntMode = .interByte then ⟨true, s.cfg.sntWindow⟩ else s.snt })

/-- R91 at the machine, in the states R53 says AW_PAYLOAD is in: the byte goes to index `rx_len - rx_rem`. -/
def Obligations.PayloadByteIsBuffered : Prop :=
  ∀ (s : State) (b : Byte), s.cfg.cfgEnable = true → s.rxEn = true → s.rx.state = .awPayload →
    1 ≤ s.rx.rem.toNat → s.rx.rem.toNat ≤ s.rx.len.toNat → s.rx.len.toNat ≤ s.cfg.maxPayload →
    ∃ t, exec (.rxb b) s = .next t ∧
      decodeStep s.cfg s.rx b = .ok (t.rx, .pending) ∧
      Memory.read t.rx.buf (s.rx.len.toNat - s.rx.rem.toNat) = b ∧
      (∀ j, j ≠ s.rx.len.toNat - s.rx.rem.toNat → Memory.read t.rx.buf j = Memory.read s.rx.buf j) ∧
      t.rx.rem.toNat = s.rx.rem.toNat - 1 ∧
      t.rx.state = (if 1 < s.rx.rem.toNat then .awPayload else .awCksum) ∧
      t.rx.acc = s.rx.acc ^^^ b ∧
      t = { s with
        rx := { s.rx with buf := t.rx.buf, acc := t.rx.acc, rem := t.rx.rem, state := t.rx.state }
        snt := if s.cfg.sntMode = .interByte then ⟨true, s.cfg.sntWindow⟩ else s.snt }

/-- R92 at the machine, where `rx_buf` holds the payload p of the frame. -/
def Obligations.ChecksumByteCases : Prop :=
  ∀ (s : State) (b : Byte) (p : List Byte), s.cfg.cfgEnable = true → s.rxEn = true → s.rx.state = .awCksum →
    p.length = s.rx.len.toNat → p.length ≤ s.cfg.maxPayload →
    (∀ (k : Nat) (c : Byte), p[k]? = some c → Memory.read s.rx.buf k = c) →
    (b = s.rx.acc →
      decodeStep s.cfg s.rx b = .ok ({ s.rx with state := .frameReady }, .ready ⟨s.rx.addr, s.rx.mtype, s.rx.len, p⟩)) ∧
    (b ≠ s.rx.acc →
      decodeStep s.cfg s.rx b = .ok ({ s.rx with state := .error }, .errChecksum) ∧
      exec (.rxb b) s = .next { s with
        rx := { s.rx with state := .idle }
        snt := { s.snt with armed := false }
        cnt := { s.cnt with cksumErr := s.cnt.cksumErr + 1 } })

/-- R100: decoding the reference encoder's bytes gives the frame back, on the last byte and not before. -/
def Obligations.ReferenceFramesDecodeToThemselves : Prop :=
  ∀ (c : Config) (r : RxRegs) (a t : Byte) (p : List Byte), configOk c = true → r.state = .idle →
    p.length ≤ c.maxPayload →
    ∃ r', decodeBytes c r (encodeM2S a t p) =
      .ok (r', List.replicate ((encodeM2S a t p).length - 1) .pending ++ [.ready ⟨a, t, BitVec.ofNat 8 p.length, p⟩])

/-- R101 (a), (c): one bit flipped in the address, the type, a payload byte or the checksum ends in ERR_CHECKSUM on
the last byte, with no outcome before it. -/
def Obligations.FlippedBitIsAChecksumError : Prop :=
  ∀ (c : Config) (r : RxRegs) (a t : Byte) (p : List Byte) (j k : Nat) (b : Byte), configOk c = true →
    r.state = .idle → p ≠ [] → p.length ≤ c.maxPayload → j ≠ 2 → k < 8 → (encodeM2S a t p)[j]? = some b →
    ∃ r', decodeBytes c r ((encodeM2S a t p).set j (b ^^^ BitVec.twoPow 8 k)) =
      .ok (r', List.replicate ((encodeM2S a t p).length - 1) .pending ++ [.errChecksum])

/-- R101 (b): with the length byte n changed to n', framing changes instead. -/
def Obligations.FlippedLengthByteReframes : Prop :=
  ∀ (c : Config) (r : RxRegs) (a t n' : Byte) (p : List Byte), configOk c = true → r.state = .idle → p ≠ [] →
    p.length ≤ c.maxPayload → n'.toNat ≠ p.length →
    (n' = 0#8 → ∃ r', decodeBytes c r (((encodeM2S a t p).set 2 n').take 3) =
      .ok (r', [.pending, .pending, .ready ⟨a, t, 0, []⟩])) ∧
    (c.maxPayload < n'.toNat → ∃ r', decodeBytes c r (((encodeM2S a t p).set 2 n').take 3) =
      .ok (r', [.pending, .pending, .errLength])) ∧
    (n' ≠ 0#8 → n'.toNat < p.length → ∃ r' o, decodeBytes c r (((encodeM2S a t p).set 2 n').take (n'.toNat + 4)) =
      .ok (r', List.replicate (n'.toNat + 3) .pending ++ [o]) ∧ o ≠ .pending) ∧
    (p.length < n'.toNat → n'.toNat ≤ c.maxPayload → ∃ r', decodeBytes c r ((encodeM2S a t p).set 2 n') =
      .ok (r', List.replicate (p.length + 4) .pending) ∧ (r'.state = .awPayload ∨ r'.state = .awCksum))

/-! ### Receive path and safety net (spec/41_receive.md) -/

/-- R102: a byte that finds the engine disabled or `rx_en` = 0 changes no state at all; any other byte is
RxAccept's. -/
def Obligations.ByteIsDiscardedWhileReceptionIsOff : Prop :=
  ∀ (s : State) (b : Byte),
    (s.cfg.cfgEnable = false → exec (.rxb b) s = .next s) ∧
    (s.rxEn = false → exec (.rxb b) s = .next s) ∧
    (s.cfg.cfgEnable = true → s.rxEn = true → exec (.rxb b) s = rxAccept b s)

/-- R105, R106, R107, R114: a completed frame is counted, and queued where it is addressed to this slave or broadcast
and the queue has room; an unaddressed one is dropped with no error. -/
def Obligations.CompletedFrameIsFilteredAndQueued : Prop :=
  ∀ (s : State) (b : Byte) (r : RxRegs) (f : Frame), s.cfg.cfgEnable = true → s.rxEn = true →
    decodeStep s.cfg s.rx b = .ok (r, .ready f) →
    ((f.addr = s.cfg.myAddr ∨ f.addr = 0#8) → s.rq.length < s.cfg.reqQueueDepth →
      exec (.rxb b) s = .next { s with
        rx := { r with state := .idle }
        snt := { s.snt with armed := false }
        cnt := { s.cnt with frames := s.cnt.frames + 1 }
        rq := s.rq ++ [f] }) ∧
    ((f.addr = s.cfg.myAddr ∨ f.addr = 0#8) → s.cfg.reqQueueDepth ≤ s.rq.length →
      exec (.rxb b) s = .next { s with
        rx := { r with state := .idle }
        snt := { s.snt with armed := false }
        cnt := { s.cnt with frames := s.cnt.frames + 1, qovf := s.cnt.qovf + 1 } }) ∧
    (¬(f.addr = s.cfg.myAddr ∨ f.addr = 0#8) →
      exec (.rxb b) s = .next { s with
        rx := { r with state := .idle }
        snt := { s.snt with armed := false }
        cnt := { s.cnt with frames := s.cnt.frames + 1 } })

/-- R106 with R49: the filter accepts exactly this slave's address and 0, so never an unassigned address. -/
def Obligations.FilterAcceptsOwnAddressAndBroadcast : Prop :=
  (∀ (c : Config) (a : Byte), accept c a = true ↔ a = c.myAddr ∨ a = 0#8) ∧
  (∀ (c : Config) (a : Byte), configOk c = true → addressClass a = .unassigned → accept c a = false) ∧
  (∀ (c : Config) (a : Byte), addressClass a = .broadcast → accept c a = true)

/-- The frame of RX_BYTE: it writes receive registers, the timer, three counters and the tail of the queue, and of
`rx_buf` only the byte at `rx_len - rx_rem` in AW_PAYLOAD. -/
def Obligations.RxByteFrame : Prop :=
  ∀ (s t : State) (b : Byte), exec (.rxb b) s = .next t →
    t.cfg = s.cfg ∧ t.rxEn = s.rxEn ∧ t.dir = s.dir ∧ t.tx = s.tx ∧ t.utxFifo = s.utxFifo ∧ t.busOut = s.busOut ∧
    t.outputs = s.outputs ∧ t.trace = s.trace ∧ t.free = s.free ∧
    t.cnt.desync = s.cnt.desync ∧ t.cnt.fault = s.cnt.fault ∧
    (∃ fs, t.rq = s.rq ++ fs ∧ fs.length ≤ 1) ∧
    (∀ j, ¬(s.rx.state = .awPayload ∧ j = (s.rx.len - s.rx.rem).toNat) →
      Memory.read t.rx.buf j = Memory.read s.rx.buf j)

/-- A complete good frame, byte by byte from IDLE: R100, R103, R105 to R107 and R116 at the machine. -/
def Obligations.GoodFrameReachesTheQueue : Prop :=
  ∀ (s : State) (a ty : Byte) (p : List Byte), configOk s.cfg = true → s.cfg.cfgEnable = true → s.rxEn = true →
    s.rx.state = .idle → p.length ≤ s.cfg.maxPayload →
    ∃ t, execAll (rxEvents (encodeM2S a ty p)) s = .next t ∧
      t.rx.state = .idle ∧ t.snt.armed = false ∧
      t.rq = (if (a = s.cfg.myAddr ∨ a = 0#8) ∧ s.rq.length < s.cfg.reqQueueDepth
        then s.rq ++ [⟨a, ty, BitVec.ofNat 8 p.length, p⟩] else s.rq) ∧
      t.cnt = { s.cnt with
        frames := s.cnt.frames + 1
        qovf := if (a = s.cfg.myAddr ∨ a = 0#8) ∧ s.cfg.reqQueueDepth ≤ s.rq.length
          then s.cnt.qovf + 1 else s.cnt.qovf } ∧
      t = { s with rx := t.rx, snt := t.snt, rq := t.rq, cnt := t.cnt }

/-- R20: between two events `rx_state` holds only the five held states: it does after RESET, and every event, the
RX_BYTE that reaches FRAME_READY or ERROR among them, leaves it so. -/
def Obligations.OnlyHeldStatesBetweenEvents : Prop :=
  (∀ c : Config, heldBetweenEvents (State.resetWith c).rx.state = true) ∧
  ∀ (i : Instr) (s t : State), heldBetweenEvents s.rx.state = true → exec i s = .next t →
    heldBetweenEvents t.rx.state = true

/-- R108, R109: `SafetyNetAfterByte` under both modes, after every received byte that is decoded. -/
def Obligations.WindowFollowsTheMode : Prop :=
  ∀ (s : State) (b : Byte) (r : RxRegs) (o : Decoded), s.cfg.cfgEnable = true → s.rxEn = true →
    decodeStep s.cfg s.rx b = .ok (r, o) →
    ∃ t, exec (.rxb b) s = .next t ∧ t.rx = exitToIdle r o ∧
      (t.rx.state = .idle → t.snt = { s.snt with armed := false }) ∧
      (t.rx.state ≠ .idle → s.cfg.sntMode = .interByte → t.snt = ⟨true, s.cfg.sntWindow⟩) ∧
      (t.rx.state ≠ .idle → s.cfg.sntMode = .fromFirstByte → s.rx.state = .idle →
        t.snt = ⟨true, s.cfg.sntWindow⟩) ∧
      (t.rx.state ≠ .idle → s.cfg.sntMode = .fromFirstByte → s.rx.state ≠ .idle → t.snt = s.snt)

/-- R104, R145: after a receive error the receive side is in IDLE and its window is stopped, and nothing was queued. -/
def Obligations.ReceiveErrorReturnsToIdle : Prop :=
  ∀ (s t : State) (b : Byte), exec (.rxb b) s = .next t →
    t.cnt.cksumErr ≠ s.cnt.cksumErr ∨ t.cnt.lenErr ≠ s.cnt.lenErr →
    t.rx.state = .idle ∧ t.snt.armed = false ∧ t.rq = s.rq

/-- R110, R111: a TICK counts the window down and fires it at 0; disarmed or disabled it changes nothing. -/
def Obligations.TickCountsDownAndFires : Prop :=
  ∀ s : State,
    (s.cfg.cfgEnable = false → exec .tick s = .next s) ∧
    (s.snt.armed = false → exec .tick s = .next s) ∧
    (s.cfg.cfgEnable = true → s.snt.armed = true → 2 ≤ s.snt.count →
      exec .tick s = .next { s with snt := { s.snt with count := s.snt.count - 1 } }) ∧
    (s.cfg.cfgEnable = true → s.snt.armed = true → s.snt.count = 1 →
      exec .tick s = .next { s with
        rx := { s.rx with state := .idle }
        snt := ⟨false, 0⟩
        cnt := { s.cnt with desync := s.cnt.desync + 1 } })

/-- R110, R111 over a whole window: no byte for `snt_count` TICKs aborts the frame, and fewer TICKs do not. -/
def Obligations.SafetyNetFiresAfterItsWindow : Prop :=
  ∀ s : State, s.cfg.cfgEnable = true → s.snt.armed = true → 1 ≤ s.snt.count →
    (∀ k, k < s.snt.count →
      execAll (tickEvents k) s = .next { s with snt := { s.snt with count := s.snt.count - k } }) ∧
    execAll (tickEvents s.snt.count) s = .next { s with
      rx := { s.rx with state := .idle }
      snt := ⟨false, 0⟩
      cnt := { s.cnt with desync := s.cnt.desync + 1 } }

/-- spec/95_test_vectors.md EX8: from any partial frame, silence for the window and then a good frame for this slave:
the frame is decoded and queued. -/
def Obligations.DesyncRecoversAndTheNextFrameDecodes : Prop :=
  ∀ (s : State) (ty : Byte) (p : List Byte), Inv s → s.cfg.cfgEnable = true → s.rxEn = true → s.rx.state ≠ .idle →
    p.length ≤ s.cfg.maxPayload → s.rq.length < s.cfg.reqQueueDepth →
    ∃ t, execAll (tickEvents s.snt.count ++ rxEvents (encodeM2S s.cfg.myAddr ty p)) s = .next t ∧
      t.rx.state = .idle ∧ t.rq = s.rq ++ [⟨s.cfg.myAddr, ty, BitVec.ofNat 8 p.length, p⟩] ∧
      t.cnt = { s.cnt with frames := s.cnt.frames + 1, desync := s.cnt.desync + 1 }

/-- R25: `rx_xor` holds the XOR of every byte of the current frame received so far, and every event keeps it so. -/
def Obligations.XorTracksTheFrame : Prop :=
  ∀ (i : Instr) (s t : State), Inv s → XorTracksFrame s.rx → exec i s = .next t → XorTracksFrame t.rx

/-! ### Transmit engine, completion and direction (spec/42_transmit.md, spec/43_direction.md) -/

/-- R119: a rejected TX_BEGIN writes nothing but `cnt_fault`, and not even that in a disabled engine. -/
def Obligations.RejectedTxBeginOnlyCounts : Prop :=
  ∀ (s : State) (r : Response),
    (s.cfg.cfgEnable = false →
      exec (.txb r) s = .next { s with outputs := s.outputs ++ [.txbStatus .rejected] }) ∧
    (s.cfg.cfgEnable = true →
      (s.tx.active = true ∨ s.dir = .transmit ∨ s.cfg.maxPayload < (responseLen r).toNat) →
      exec (.txb r) s = .next { s with
        cnt := { s.cnt with fault := s.cnt.fault + 1 }
        outputs := s.outputs ++ [.txbStatus .rejected] }) ∧
    (s.cfg.cfgEnable = true → s.tx.active = false → s.dir = .receive →
      (responseLen r).toNat ≤ s.cfg.maxPayload → exec (.txb r) s = txAccept r s)

/-- R120 with R121: an accepted TX_BEGIN creates the job, turns the bus, loads the FIFO and returns ACCEPTED; and
nothing else changes. -/
def Obligations.AcceptedTxBeginStartsTheJob : Prop :=
  ∀ (s : State) (r : Response), s.cfg.cfgEnable = true → s.tx.active = false → s.dir = .receive → r.wf = true →
    (responseLen r).toNat ≤ s.cfg.maxPayload →
    ∃ t, exec (.txb r) s = .next t ∧ HoldsResponse t r ∧
      t.tx.active = true ∧ t.tx.echoPending = s.cfg.echo ∧ t.rxEn = false ∧ t.dir = .transmit ∧
      t.tx.idx.toNat = min t.tx.total.toNat (s.cfg.txFifoDepth - s.utxFifo.length) ∧
      t.utxFifo = s.utxFifo ++ (encodeS2M s.cfg r).take (s.cfg.txFifoDepth - s.utxFifo.length) ∧
      t.outputs = s.outputs ++ [.txbStatus .accepted] ∧
      (r = .empty → t.tx.mtype = s.tx.mtype) ∧
      (∀ k, (responseLen r).toNat ≤ k → Memory.read t.tx.buf k = Memory.read s.tx.buf k) ∧
      t.cfg = s.cfg ∧ t.rx = s.rx ∧ t.snt = s.snt ∧ t.cnt = s.cnt ∧ t.rq = s.rq ∧ t.busOut = s.busOut ∧
      t.trace = s.trace ∧ t.free = s.free

/-- R122 with R121: TX_SPACE has no step unless enabled; enabled, it fills the FIFO with the next bytes of the
response. -/
def Obligations.TxSpaceFillsTheFifo : Prop :=
  (∀ s : State, ¬(s.tx.active = true ∧ s.utxFifo.length < s.cfg.txFifoDepth) →
    exec .txs s = .refused .txSpaceNotEnabled) ∧
  (∀ (s : State) (r : Response), HoldsResponse s r → s.tx.active = true → s.utxFifo.length < s.cfg.txFifoDepth →
    s.tx.idx.toNat ≤ s.tx.total.toNat →
    exec .txs s = .next { s with
      utxFifo := s.utxFifo ++
        ((encodeS2M s.cfg r).drop s.tx.idx.toNat).take (s.cfg.txFifoDepth - s.utxFifo.length)
      tx := { s.tx with
        idx := BitVec.ofNat 9
          (min s.tx.total.toNat (s.tx.idx.toNat + (s.cfg.txFifoDepth - s.utxFifo.length))) } })

/-- R123: LINE_OUT moves the FIFO's head to the line; with ECHO the byte comes back as an RX_BYTE, discarded where
`rx_en` = 0; and in every state of the invariant the byte leaves with DE asserted. -/
def Obligations.LineOutSendsTheHead : Prop :=
  (∀ s : State, Inv s → s.utxFifo ≠ [] → s.de = true ∧ s.rxEn = false) ∧
  ∀ s : State,
    (s.utxFifo = [] → exec .lout s = .refused .lineOutNotEnabled) ∧
    (∀ (b : Byte) (rest : List Byte), s.utxFifo = b :: rest →
      (s.cfg.echo = false → exec .lout s = .next { s with utxFifo := rest, busOut := s.busOut ++ [b] }) ∧
      (s.cfg.echo = true → exec .lout s = exec (.rxb b) { s with utxFifo := rest, busOut := s.busOut ++ [b] }) ∧
      (s.rxEn = false → exec .lout s = .next { s with utxFifo := rest, busOut := s.busOut ++ [b] }))

/-- R124 and spec/10_state.md R41: no echo byte reaches the receive state machine, and every byte leaves with DE
asserted. -/
def Obligations.EchoIsNeverDecoded : Prop :=
  ∀ (s t : State), Inv s → exec .lout s = .next t →
    s.de = true ∧ t.de = true ∧
    ∃ b rest, s.utxFifo = b :: rest ∧ t = { s with utxFifo := rest, busOut := s.busOut ++ [b] }

/-- R125: TX_DONE has no step unless enabled; enabled, it clears the job, drains the echo, sets RECEIVE and re-arms
reception, and changes nothing else. -/
def Obligations.TxDoneReleasesTheBus : Prop :=
  ∀ s : State,
    (¬(s.tx.active = true ∧ s.tx.idx = s.tx.total ∧ s.utxFifo = []) → exec .txd s = .refused .txDoneNotEnabled) ∧
    (s.tx.active = true → s.tx.idx = s.tx.total → s.utxFifo = [] →
      exec .txd s = .next { s with
        tx := { s.tx with active := false, echoPending := false }
        dir := .receive
        rxEn := true })

/-- R126, R134, R136: only TX_DONE (RESET aside) ends a job, turns the bus to RECEIVE and turns reception on; only an
accepted TX_BEGIN starts a job, turns the bus to TRANSMIT and turns reception off. -/
def Obligations.OnlyTxDoneEndsAJob : Prop :=
  ∀ (i : Instr) (s t : State), exec i s = .next t →
    (s.tx.active = true → t.tx.active = false → i = .txd ∨ i = .rst) ∧
    (s.tx.active = false → t.tx.active = true →
      (∃ r, i = .txb r) ∧ s.dir = .receive ∧ t.outputs = s.outputs ++ [.txbStatus .accepted]) ∧
    (s.dir = .transmit → t.dir = .receive → i = .txd ∨ i = .rst) ∧
    (s.dir = .receive → t.dir = .transmit →
      (∃ r, i = .txb r) ∧ s.tx.active = false ∧ t.tx.active = true ∧
        t.outputs = s.outputs ++ [.txbStatus .accepted]) ∧
    (s.rxEn = true → t.rxEn = false →
      (∃ r, i = .txb r) ∧ s.tx.active = false ∧ t.tx.active = true ∧
        t.outputs = s.outputs ++ [.txbStatus .accepted]) ∧
    (s.rxEn = false → t.rxEn = true → i = .txd ∨ i = .rst)

/-- R131, R132, R133, R135: the direction controller's two operations. -/
def Obligations.DirectionOperations : Prop :=
  ∀ s : State,
    enableTransmit s = { s with dir := .transmit } ∧ (enableTransmit s).de = true ∧
    enableReceive s = { s with dir := .receive } ∧ (enableReceive s).de = false ∧
    enableTransmit (enableTransmit s) = enableTransmit s ∧ enableReceive (enableReceive s) = enableReceive s ∧
    (s.dir = .transmit → enableTransmit s = s) ∧ (s.dir = .receive → enableReceive s = s) ∧
    (s.de = true ↔ s.dir = .transmit)

/-- R128, R129: the bytes on the line from an accepted TX_BEGIN to its TX_DONE are exactly the encoded response,
whatever events come between (rejected TX_BEGINs among them). -/
def Obligations.BytesOnTheLineAreTheEncodedResponse : Prop :=
  ∀ (s s1 s2 s3 : State) (r : Response) (es : List Instr), Inv s → r.wf = true → s.tx.active = false →
    exec (.txb r) s = .next s1 → s1.tx.active = true →
    (∀ e ∈ es, e ≠ .txd ∧ e ≠ .rst) → execAll es s1 = .next s2 → exec .txd s2 = .next s3 →
    s3.busOut = s.busOut ++ encodeS2M s.cfg r

/-- Every job in flight can be brought to its TX_DONE by UART events alone: the transmit side never blocks. -/
def Obligations.EveryJobCanFinish : Prop :=
  ∀ s : State, Inv s → s.tx.active = true →
    ∃ (es : List Instr) (t : State), (∀ e ∈ es, e = .lout ∨ e = .txs) ∧ execAll (es ++ [.txd]) s = .next t ∧
      t.tx.active = false ∧ t.dir = .receive ∧ t.rxEn = true ∧ t.utxFifo = []

/-- R102, R155, R179: from an accepted TX_BEGIN to its TX_DONE nothing is received: with no TICK between, the receive
side comes out as it went in. -/
def Obligations.NothingIsReceivedDuringAJob : Prop :=
  ∀ (s s2 : State) (es : List Instr), Inv s → s.tx.active = true → (∀ e ∈ es, e ≠ .txd ∧ e ≠ .rst) →
    execAll es s = .next s2 →
    s2.rxEn = false ∧ s2.dir = .transmit ∧ s2.cnt.frames = s.cnt.frames ∧ s2.cnt.cksumErr = s.cnt.cksumErr ∧
    s2.cnt.lenErr = s.cnt.lenErr ∧ s2.cnt.qovf = s.cnt.qovf ∧
    ((∀ e ∈ es, e ≠ .tick) → s2.rx = s.rx ∧ s2.snt = s.snt)

/-! ### Host interface (spec/44_host.md) -/

/-- R137: POP returns and removes the oldest frame, or NONE. -/
def Obligations.PopReturnsTheOldestFrame : Prop :=
  ∀ s : State,
    (s.rq = [] → exec .pop s = .next { s with outputs := s.outputs ++ [.popResult none] }) ∧
    (∀ (f : Frame) (rest : List Frame), s.rq = f :: rest →
      exec .pop s = .next { s with rq := rest, outputs := s.outputs ++ [.popResult (some f)] })

/-- R138, R81: STAT returns the selected counter and writes nothing; the selector codes, 6 to 255 reserved. -/
def Obligations.StatReturnsACounter : Prop :=
  (∀ rest : List EventWord,
    decode (eventWord 0x9#4 0 :: rest) = .ok (.stat .frames, rest) ∧
    decode (eventWord 0x9#4 1 :: rest) = .ok (.stat .cksumErr, rest) ∧
    decode (eventWord 0x9#4 2 :: rest) = .ok (.stat .desync, rest) ∧
    decode (eventWord 0x9#4 3 :: rest) = .ok (.stat .lenErr, rest) ∧
    decode (eventWord 0x9#4 4 :: rest) = .ok (.stat .fault, rest) ∧
    decode (eventWord 0x9#4 5 :: rest) = .ok (.stat .qovf, rest) ∧
    ∀ op : Byte, 5 < op.toNat → decode (eventWord 0x9#4 op :: rest) = .error .reservedSelector) ∧
  ∀ s : State,
    exec (.stat .frames) s = .next { s with outputs := s.outputs ++ [.statValue s.cnt.frames] } ∧
    exec (.stat .cksumErr) s = .next { s with outputs := s.outputs ++ [.statValue s.cnt.cksumErr] } ∧
    exec (.stat .desync) s = .next { s with outputs := s.outputs ++ [.statValue s.cnt.desync] } ∧
    exec (.stat .lenErr) s = .next { s with outputs := s.outputs ++ [.statValue s.cnt.lenErr] } ∧
    exec (.stat .fault) s = .next { s with outputs := s.outputs ++ [.statValue s.cnt.fault] } ∧
    exec (.stat .qovf) s = .next { s with outputs := s.outputs ++ [.statValue s.cnt.qovf] }

/-- R57: the queue is first-in first-out: POP takes the head, a completed frame goes to the tail, nothing else but
RESET touches it. -/
def Obligations.RequestQueueIsFifo : Prop :=
  ∀ (i : Instr) (s t : State), exec i s = .next t → i ≠ .rst →
    t.rq = s.rq ∨ (∃ f, t.rq = s.rq ++ [f] ∧ s.rq.length < s.cfg.reqQueueDepth ∧ (i = .lout ∨ ∃ b, i = .rxb b)) ∨
    (∃ f, s.rq = f :: t.rq ∧ i = .pop ∧ t.outputs = s.outputs ++ [.popResult (some f)])

/-- R36: a counter only counts, by one and modulo 2^32; no event clears one except RESET. -/
def Obligations.CountersOnlyCountUp : Prop :=
  ∀ (i : Instr) (s t : State), exec i s = .next t → i ≠ .rst →
    (t.cnt.frames = s.cnt.frames ∨ t.cnt.frames = s.cnt.frames + 1) ∧
    (t.cnt.cksumErr = s.cnt.cksumErr ∨ t.cnt.cksumErr = s.cnt.cksumErr + 1) ∧
    (t.cnt.desync = s.cnt.desync ∨ t.cnt.desync = s.cnt.desync + 1) ∧
    (t.cnt.lenErr = s.cnt.lenErr ∨ t.cnt.lenErr = s.cnt.lenErr + 1) ∧
    (t.cnt.fault = s.cnt.fault ∨ t.cnt.fault = s.cnt.fault + 1) ∧
    (t.cnt.qovf = s.cnt.qovf ∨ t.cnt.qovf = s.cnt.qovf + 1)

/-- R152: one event raises at most one error, and each event only its own. For LINE_OUT the premise is what
spec/10_state.md R41 gives of a FIFO with bytes in it. -/
def Obligations.OneErrorPerEvent : Prop :=
  ∀ (i : Instr) (s t : State), exec i s = .next t → i ≠ .rst → (i = .lout → s.rxEn = false) →
    (t.cnt.cksumErr, t.cnt.lenErr, t.cnt.desync, t.cnt.fault, t.cnt.qovf) =
      (s.cnt.cksumErr, s.cnt.lenErr, s.cnt.desync, s.cnt.fault, s.cnt.qovf) ∨
    (∃ b, i = .rxb b ∧
      ((t.cnt.cksumErr, t.cnt.lenErr, t.cnt.desync, t.cnt.fault, t.cnt.qovf) =
        (s.cnt.cksumErr + 1, s.cnt.lenErr, s.cnt.desync, s.cnt.fault, s.cnt.qovf) ∨
      (t.cnt.cksumErr, t.cnt.lenErr, t.cnt.desync, t.cnt.fault, t.cnt.qovf) =
        (s.cnt.cksumErr, s.cnt.lenErr + 1, s.cnt.desync, s.cnt.fault, s.cnt.qovf) ∨
      (t.cnt.cksumErr, t.cnt.lenErr, t.cnt.desync, t.cnt.fault, t.cnt.qovf) =
        (s.cnt.cksumErr, s.cnt.lenErr, s.cnt.desync, s.cnt.fault, s.cnt.qovf + 1))) ∨
    (i = .tick ∧ (t.cnt.cksumErr, t.cnt.lenErr, t.cnt.desync, t.cnt.fault, t.cnt.qovf) =
      (s.cnt.cksumErr, s.cnt.lenErr, s.cnt.desync + 1, s.cnt.fault, s.cnt.qovf)) ∨
    (∃ r, i = .txb r ∧ (t.cnt.cksumErr, t.cnt.lenErr, t.cnt.desync, t.cnt.fault, t.cnt.qovf) =
      (s.cnt.cksumErr, s.cnt.lenErr, s.cnt.desync, s.cnt.fault + 1, s.cnt.qovf))

/-- R45, R112: the frame of every event that is no received byte. The premise on LINE_OUT is what spec/10_state.md R41
gives of a FIFO with bytes in it. -/
def Obligations.EventsWriteOnlyTheirOwnState : Prop :=
  ∀ (i : Instr) (s t : State), exec i s = .next t → (∀ b, i ≠ .rxb b) → i ≠ .rst → (i = .lout → s.rxEn = false) →
    (i ≠ .tick → t.rx = s.rx ∧ t.snt = s.snt) ∧
    (i = .tick → t.rx = { s.rx with state := t.rx.state }) ∧
    ((∀ r, i ≠ .txb r) → i ≠ .txd → t.rxEn = s.rxEn ∧ t.dir = s.dir ∧
      t.tx = { s.tx with idx := t.tx.idx } ∧ (i ≠ .txs → t.tx = s.tx)) ∧
    (i ≠ .tick → (∀ r, i ≠ .txb r) → t.cnt = s.cnt) ∧
    (i ≠ .pop → t.rq = s.rq) ∧
    ((∀ r, i ≠ .txb r) → i ≠ .txs → i ≠ .lout → t.utxFifo = s.utxFifo) ∧
    (i ≠ .lout → t.busOut = s.busOut) ∧
    ((∀ r, i ≠ .txb r) → i ≠ .pop → (∀ x, i ≠ .stat x) → t.outputs = s.outputs) ∧
    t.cfg = s.cfg ∧ t.trace = s.trace ∧ t.free = s.free

/-! ### Errors, enabling, reset (spec/60_exceptions.md, spec/70_reset_and_hazards.md) -/

/-- R153, R141, R145: from a state of the invariant every enabled event completes, and an event that is not enabled is
refused. -/
def Obligations.EnabledEventsComplete : Prop :=
  ∀ (i : Instr) (s : State), Inv s → i.wf = true →
    (enabled s i = true → ∃ t, exec i s = .next t) ∧ (enabled s i = false → ∃ r, exec i s = .refused r)

/-- R79: an argument word outside an item has no step, in every state. -/
def Obligations.StrayArgumentHasNoStep : Prop :=
  ∀ (b : Byte) (s : State), exec (.arg b) s = .refused .strayArg

/-- R167: RESET's values, from every state; `bus_out` is not cleared. -/
def Obligations.ResetSetsTheResetValues : Prop :=
  ∀ s : State, ∃ t, exec .rst s = .next t ∧
    t.rx.state = .idle ∧ t.snt.armed = false ∧ t.rxEn = true ∧ t.dir = .receive ∧ t.tx.active = false ∧
    t.tx.echoPending = false ∧ t.cnt = ⟨0, 0, 0, 0, 0, 0⟩ ∧ t.rq = [] ∧ t.utxFifo = [] ∧
    t.busOut = s.busOut

/-- R168: from every state, RESET gives the power-on state of its configuration, but for registers no rule reads and
for the observations and the rest of the trace, which it leaves (that the emitted values stay is the model's choice,
log entry 3; the power-on values of the unread registers are log entries 4's and 6's and play no part). -/
def Obligations.PowerOnIsAReset : Prop :=
  ∀ s : State, ∃ t, exec .rst s = .next t ∧
    SameButUnread { State.resetWith s.cfg with busOut := s.busOut, outputs := s.outputs, trace := s.trace } t

/-- R169: RESET brings a disabled engine to the state it gives, and there it stays. -/
def Obligations.DisabledEngineIsInert : Prop :=
  (∀ s : State, s.cfg.cfgEnable = false → ∃ t, exec .rst s = .next t ∧ DisabledAtReset t) ∧
  ∀ s : State, DisabledAtReset s →
    (∀ b, exec (.rxb b) s = .next s) ∧ exec .tick s = .next s ∧
    (∀ r, exec (.txb r) s = .next { s with outputs := s.outputs ++ [.txbStatus .rejected] }) ∧
    exec .pop s = .next { s with outputs := s.outputs ++ [.popResult none] } ∧
    (∀ sel, exec (.stat sel) s = .next { s with outputs := s.outputs ++ [.statValue 0] }) ∧
    (∃ r, exec .txs s = .refused r) ∧ (∃ r, exec .lout s = .refused r) ∧ (∃ r, exec .txd s = .refused r) ∧
    s.de = false ∧ (∀ i t, exec i s = .next t → DisabledAtReset t ∧ t.busOut = s.busOut)

/-! ### Invariants and headline results -/

/-- The invariant holds in the state RESET gives, for every configuration in its ranges. -/
def Obligations.InvariantHoldsAtReset : Prop :=
  ∀ c : Config, configOk c = true → Inv (State.resetWith c)

/-- Every step keeps the invariant. -/
def Obligations.EveryStepKeepsTheInvariant : Prop :=
  ∀ s t : State, Inv s → step s = .next t → Inv t

/-- No step faults from a state of the invariant: no payload buffer is accessed outside its indices. -/
def Obligations.NoStepFaults : Prop :=
  ∀ (s : State) (f : Fault), Inv s → step s ≠ .fault f

/-- R41 of every state a trace can lead to, from the state RESET gives under any configuration. -/
def Obligations.EveryReachableStateMeetsR41 : Prop :=
  ∀ (c : Config) (words : List EventWord) (k : Nat) (t : State), configOk c = true →
    Sys2Proof.core.run k { State.resetWith c with trace := words } = .next t → R41 t

/-- R167, spec/93_implementation_defined.md I13, I14: no rule reads an unspecified register: two states that differ
only in such registers step alike, with the same observation. -/
def Obligations.UnspecifiedRegistersAreNeverObserved : Prop :=
  ∀ s t : State, SameButUnread s t → SameResult (step s) (step t)
end

