-- ==== Sys2Proof/Laws/Memory.lean ====
section
/-! SUPPORT. The payload buffers: a read after a write, the canonical form kept by every write, and what the checked
accesses answer. -/

namespace Sys2Proof.Machine

@[simp] theorem Memory.read_nil (i : Nat) : Memory.read [] i = Memory.unlisted := rfl

@[simp] theorem Memory.wf_nil : Memory.wf [] = true := rfl

theorem Memory.read_insert_same (m : Memory) (i : Nat) (b : Byte) : (m.insert i b).read i = b := by
  induction m with
  | nil => simp [Memory.insert, Memory.read]
  | cons c rest ih =>
    obtain ⟨a, c⟩ := c
    simp only [Memory.insert]
    split
    · simp [Memory.read]
    · split
      · simp [Memory.read]
      · rename_i h1 h2
        simp only [Memory.read, ih, if_neg (show ¬a = i from fun h => h2 h.symm)]

theorem Memory.read_insert_ne (m : Memory) {i j : Nat} (b : Byte) (h : j ≠ i) : (m.insert i b).read j = m.read j := by
  induction m with
  | nil => simp [Memory.insert, Memory.read, h.symm]
  | cons c rest ih =>
    obtain ⟨a, c⟩ := c
    simp only [Memory.insert]
    split
    · simp [Memory.read, h.symm]
    · split
      · rename_i h1 h2
        subst h2
        simp [Memory.read, h.symm]
      · simp only [Memory.read, ih]

/-- A buffer with an index taken off its list reads as unlisted there and as before elsewhere. -/
theorem Memory.read_filter (m : Memory) (i j : Nat) :
    Memory.read (m.filter fun c => decide (c.1 ≠ i)) j = if j = i then Memory.unlisted else m.read j := by
  induction m with
  | nil => simp
  | cons c rest ih =>
    obtain ⟨a, c⟩ := c
    by_cases ha : a = i
    · subst ha
      rw [List.filter_cons_of_neg (by simp), ih]
      split
      · rfl
      · rename_i h
        simp only [Memory.read, if_neg (show ¬a = j from fun e => h e.symm)]
    · rw [List.filter_cons_of_pos (by simpa using ha)]
      simp only [Memory.read, ih]
      by_cases hj : a = j
      · simp [hj.symm, ha]
      · simp [hj]

theorem Memory.read_write_same (m : Memory) (i : Nat) (b : Byte) : (m.write i b).read i = b := by
  unfold Memory.write
  split
  · rename_i h
    rw [Memory.read_filter, if_pos rfl, h]
  · exact Memory.read_insert_same m i b

theorem Memory.read_write_ne (m : Memory) {i j : Nat} (b : Byte) (h : j ≠ i) : (m.write i b).read j = m.read j := by
  unfold Memory.write
  split
  · rw [Memory.read_filter, if_neg h]
  · exact Memory.read_insert_ne m b h

/-- Every index of a list written from i on is unchanged below i. -/
theorem Memory.read_writeFrom_lt (bs : List Byte) : ∀ (m : Memory) (i j : Nat), j < i →
    (m.writeFrom i bs).read j = m.read j := by
  induction bs with
  | nil => intro m i j _; rfl
  | cons b bs ih =>
    intro m i j h
    rw [Memory.writeFrom, ih _ _ _ (by omega), Memory.read_write_ne _ _ (by omega)]

theorem Memory.read_writeFrom_ge (bs : List Byte) : ∀ (m : Memory) (i j : Nat), i + bs.length ≤ j →
    (m.writeFrom i bs).read j = m.read j := by
  induction bs with
  | nil => intro m i j _; rfl
  | cons b bs ih =>
    intro m i j h
    simp only [List.length_cons] at h
    rw [Memory.writeFrom, ih _ _ _ (by omega), Memory.read_write_ne _ _ (by omega)]

theorem Memory.read_writeFrom (bs : List Byte) : ∀ (m : Memory) (i k : Nat) (b : Byte), bs[k]? = some b →
    (m.writeFrom i bs).read (i + k) = b := by
  induction bs with
  | nil => intro m i k b h; simp at h
  | cons c bs ih =>
    intro m i k b h
    cases k with
    | zero =>
      simp only [List.getElem?_cons_zero, Option.some.injEq] at h
      subst h
      rw [Nat.add_zero, Memory.writeFrom, Memory.read_writeFrom_lt _ _ _ _ (by omega), Memory.read_write_same]
    | succ k =>
      simp only [List.getElem?_cons_succ] at h
      rw [Memory.writeFrom, show i + (k + 1) = i + 1 + k by omega]
      exact ih _ _ _ _ h

/-- The canonical form as a proposition. -/
theorem Memory.wf_iff (m : Memory) :
    m.wf = true ↔ (m.Pairwise fun x y => x.1 < y.1) ∧ ∀ x ∈ m, x.2 ≠ Memory.unlisted := by
  simp [Memory.wf]

/-- An entry after an insertion is the new one or an old one. -/
theorem Memory.mem_insert {m : Memory} {i : Nat} {b : Byte} {x : Host.Cell} (h : x ∈ m.insert i b) :
    x = (i, b) ∨ x ∈ m := by
  induction m with
  | nil => exact .inl (by simpa [Memory.insert] using h)
  | cons c rest ih =>
    obtain ⟨a, c⟩ := c
    simp only [Memory.insert] at h
    split at h
    · rcases List.mem_cons.1 h with h | h
      · exact .inl h
      · exact .inr h
    · split at h
      · rcases List.mem_cons.1 h with h | h
        · exact .inl h
        · exact .inr (List.mem_cons_of_mem _ h)
      · rcases List.mem_cons.1 h with h | h
        · exact .inr (h ▸ List.mem_cons_self ..)
        · exact (ih h).imp id (List.mem_cons_of_mem _)

theorem Memory.insert_pairwise {m : Memory} (i : Nat) (b : Byte) (h : m.Pairwise fun x y => x.1 < y.1) :
    (m.insert i b).Pairwise fun x y => x.1 < y.1 := by
  induction m with
  | nil => simp [Memory.insert]
  | cons c rest ih =>
    obtain ⟨a, c⟩ := c
    have h' := List.pairwise_cons.1 h
    simp only [Memory.insert]
    split
    · rename_i hi
      refine List.pairwise_cons.2 ⟨fun x hx => ?_, h⟩
      rcases List.mem_cons.1 hx with rfl | hx
      · exact hi
      · exact Nat.lt_trans hi (h'.1 x hx)
    · split
      · rename_i h1 h2
        subst h2
        exact List.pairwise_cons.2 h'
      · rename_i h1 h2
        refine List.pairwise_cons.2 ⟨fun x hx => ?_, ih h'.2⟩
        rcases Memory.mem_insert hx with rfl | hx
        · show a < i
          omega
        · exact h'.1 x hx

/-- A write keeps the canonical form. -/
theorem Memory.write_wf (m : Memory) (i : Nat) (b : Byte) (h : m.wf = true) : (m.write i b).wf = true := by
  rw [Memory.wf_iff] at h ⊢
  unfold Memory.write
  split
  · exact ⟨h.1.filter _, fun x hx => h.2 x (List.mem_filter.1 hx).1⟩
  · rename_i hb
    refine ⟨Memory.insert_pairwise i b h.1, fun x hx => ?_⟩
    rcases Memory.mem_insert hx with rfl | hx
    · exact hb
    · exact h.2 x hx

theorem Memory.writeFrom_wf (bs : List Byte) : ∀ (m : Memory) (i : Nat), m.wf = true → (m.writeFrom i bs).wf = true := by
  induction bs with
  | nil => intro m i h; exact h
  | cons b bs ih => intro m i h; exact ih _ _ (Memory.write_wf _ _ _ h)

/-- A checked write answers exactly when its index is inside the buffer. -/
theorem memWrite_ok {which : Buffer} {n : Nat} {m m' : Memory} {i : Nat} {b : Byte} :
    memWrite which n m i b = .ok m' ↔ i < n ∧ m' = m.write i b := by
  unfold memWrite
  split
  · rename_i h
    simp [h, eq_comm]
  · rename_i h
    simp [h]

/-- A buffer of free values is canonical. -/
theorem freeBuffer_wf (k n : Nat) : (freeBuffer k n).wf = true := Memory.writeFrom_wf _ _ _ rfl

/-- Its bytes are the free values. -/
theorem freeBuffer_read {k n i : Nat} (h : i < n) : (freeBuffer k n).read i = Config.freeByte (k + i) := by
  have := Memory.read_writeFrom (freeBytes k n) [] 0 i (Config.freeByte (k + i)) (by simp [freeBytes, h])
  rwa [Nat.zero_add] at this

/-- A checked read answers exactly when its index is inside the buffer. -/
theorem memRead_ok {which : Buffer} {n : Nat} {m : Memory} {i : Nat} {b : Byte} :
    memRead which n m i = .ok b ↔ i < n ∧ m.read i = b := by
  unfold memRead
  split
  · rename_i h
    simp [h]
  · rename_i h
    simp [h]

/-- A checked read of a range answers the bytes of the range. -/
theorem memReadRange_ok {which : Buffer} {n : Nat} {m : Memory} : ∀ {k i : Nat} {bs : List Byte},
    memReadRange which n m i k = .ok bs ↔
      bs.length = k ∧ ∀ j : Nat, ∀ b, bs[j]? = some b → i + j < n ∧ m.read (i + j) = b := by
  intro k
  induction k with
  | zero =>
    intro i bs
    simp only [memReadRange, Except.ok.injEq]
    constructor
    · rintro rfl
      simp
    · rintro ⟨h, _⟩
      exact (List.length_eq_zero_iff.1 h).symm
  | succ k ih =>
    intro i bs
    simp only [memReadRange]
    constructor
    · intro h
      split at h
      · cases h
      · rename_i b hb
        split at h
        · cases h
        · rename_i tail ht
          cases h
          obtain ⟨hl, hr⟩ := ih.1 ht
          refine ⟨by simp [hl], fun j c hj => ?_⟩
          cases j with
          | zero =>
            simp only [List.getElem?_cons_zero, Option.some.injEq] at hj
            subst hj
            exact memRead_ok.1 hb
          | succ j =>
            simp only [List.getElem?_cons_succ] at hj
            have := hr j c hj
            rwa [show i + (j + 1) = i + 1 + j by omega]
    · rintro ⟨hl, hr⟩
      cases bs with
      | nil => simp at hl
      | cons b tail =>
        have h0 := memRead_ok (which := which).2 (hr 0 b (by simp))
        rw [Nat.add_zero] at h0
        have ht : memReadRange which n m (i + 1) k = .ok tail := by
          refine ih.2 ⟨by simpa using hl, fun j c hj => ?_⟩
          have := hr (j + 1) c (by simpa using hj)
          rwa [show i + (j + 1) = i + 1 + j by omega] at this
        rw [h0]
        simp only [ht]

/-- Where the range's bytes are p and lie inside the buffer, the read answers p. -/
theorem memReadRange_of_reads {which : Buffer} {n : Nat} {m : Memory} {p : List Byte} (hn : p.length ≤ n)
    (h : ∀ k : Nat, ∀ b, p[k]? = some b → m.read k = b) : memReadRange which n m 0 p.length = .ok p := by
  refine memReadRange_ok.2 ⟨rfl, fun j b hj => ?_⟩
  have hlt : j < p.length := by
    by_contra hge
    rw [List.getElem?_eq_none (by omega)] at hj
    cases hj
  rw [Nat.zero_add]
  exact ⟨by omega, h j b hj⟩

/-- A range inside the buffer is always read. -/
theorem memReadRange_total {which : Buffer} {n : Nat} {m : Memory} : ∀ {k i : Nat}, i + k ≤ n →
    memReadRange which n m i k = .ok ((List.range k).map fun j => m.read (i + j)) := by
  intro k i h
  refine memReadRange_ok.2 ⟨by simp, fun j b hj => ?_⟩
  simp only [List.getElem?_map, Option.map_eq_some_iff, List.getElem?_eq_some_iff, List.getElem_range,
    List.length_range] at hj
  obtain ⟨_, ⟨hk, rfl⟩, rfl⟩ := hj
  exact ⟨by omega, rfl⟩

/-- A range read depends only on the indices it reads. -/
theorem memReadRange_congr {which : Buffer} {n : Nat} {m m' : Memory} : ∀ {k i : Nat},
    (∀ j, i ≤ j → j < i + k → m.read j = m'.read j) → memReadRange which n m i k = memReadRange which n m' i k := by
  intro k
  induction k with
  | zero => intro i _; rfl
  | succ k ih =>
    intro i h
    have hr : memRead which n m i = memRead which n m' i := by
      simp only [memRead, h i (by omega) (by omega)]
    have ht := ih (i := i + 1) (fun j h1 h2 => h j (by omega) (by omega))
    simp only [memReadRange, hr, ht]

end Sys2Proof.Machine
end

