-- ==== Sys2Proof/Laws/Codec.lean ====
section
/-! SUPPORT. The checksum, and what one decode step can do in each receive state. -/

namespace Sys2Proof.Machine

theorem foldl_xor (bytes : List Byte) : ∀ x : Byte,
    bytes.foldl (fun x b => x ^^^ b) x = x ^^^ bytes.foldl (fun x b => x ^^^ b) 0#8 := by
  induction bytes with
  | nil => intro x; simp
  | cons b bs ih =>
    intro x
    simp only [List.foldl_cons]
    rw [ih (x ^^^ b), ih (0#8 ^^^ b)]
    simp [BitVec.xor_assoc]

@[simp] theorem xor8_nil : xor8 [] = 0 := rfl

@[simp] theorem xor8_cons (b : Byte) (bs : List Byte) : xor8 (b :: bs) = b ^^^ xor8 bs := by
  simp only [xor8, List.foldl_cons]
  rw [foldl_xor]
  simp

theorem xor8_append (s t : List Byte) : xor8 (s ++ t) = xor8 s ^^^ xor8 t := by
  induction s with
  | nil => simp
  | cons b s ih => simp [ih, BitVec.xor_assoc]

theorem decodeStep_idle (c : Config) {r : RxRegs} (b : Byte) (h : r.state = .idle) :
    decodeStep c r b = .ok ({ r with addr := b, acc := b, state := .awType }, .pending) := by
  simp [decodeStep, h, decodeAddress]

theorem decodeStep_awType (c : Config) {r : RxRegs} (b : Byte) (h : r.state = .awType) :
    decodeStep c r b = .ok ({ r with mtype := b, acc := r.acc ^^^ b, state := .awLen }, .pending) := by
  simp [decodeStep, h, decodeType]

theorem decodeStep_awLen_zero (c : Config) {r : RxRegs} (h : r.state = .awLen) :
    decodeStep c r 0#8 = .ok ({ r with len := 0#8, acc := r.acc ^^^ 0#8, state := .frameReady },
      .ready ⟨r.addr, r.mtype, 0, []⟩) := by
  simp [decodeStep, h, decodeLength]

theorem decodeStep_awLen_long (c : Config) {r : RxRegs} {b : Byte} (h : r.state = .awLen) (h0 : b ≠ 0#8)
    (hl : c.maxPayload < b.toNat) :
    decodeStep c r b = .ok ({ r with len := b, acc := r.acc ^^^ b, state := .error }, .errLength) := by
  simp only [decodeStep, h, decodeLength, if_neg h0, if_pos hl]

theorem decodeStep_awLen_ok (c : Config) {r : RxRegs} {b : Byte} (h : r.state = .awLen) (h0 : b ≠ 0#8)
    (hl : b.toNat ≤ c.maxPayload) :
    decodeStep c r b = .ok ({ r with len := b, acc := r.acc ^^^ b, rem := b, state := .awPayload }, .pending) := by
  simp only [decodeStep, h, decodeLength, if_neg h0, if_neg (Nat.not_lt.2 hl)]

theorem decodeStep_awPayload (c : Config) {r : RxRegs} (b : Byte) (h : r.state = .awPayload)
    (hi : (r.len - r.rem).toNat < c.maxPayload) :
    decodeStep c r b = .ok ({ r with
        buf := Memory.write r.buf (r.len - r.rem).toNat b
        acc := r.acc ^^^ b
        rem := if 1 < r.rem.toNat then r.rem - 1 else 0
        state := if 1 < r.rem.toNat then .awPayload else .awCksum }, .pending) := by
  simp only [decodeStep, h, decodePayload, memWrite, if_pos hi]
  split <;> simp

theorem decodeStep_awCksum_bad (c : Config) {r : RxRegs} {b : Byte} (h : r.state = .awCksum) (hb : b ≠ r.acc) :
    decodeStep c r b = .ok ({ r with state := .error }, .errChecksum) := by
  simp only [decodeStep, h, decodeChecksum, if_neg hb]

theorem decodeStep_awCksum_good (c : Config) {r : RxRegs} {p : List Byte} (h : r.state = .awCksum)
    (hl : p.length = r.len.toNat) (hm : p.length ≤ c.maxPayload)
    (hp : ∀ k : Nat, ∀ b, p[k]? = some b → Memory.read r.buf k = b) :
    decodeStep c r r.acc = .ok ({ r with state := .frameReady }, .ready ⟨r.addr, r.mtype, r.len, p⟩) := by
  have := memReadRange_of_reads (which := .rxBuf) hm hp
  rw [hl] at this
  simp only [decodeStep, h, decodeChecksum, if_true, this]

/-- Everything one decode step can do (spec/40_codec.md R88 to R93), where it does not fault. -/
theorem decodeStep_ok {c : Config} {r r' : RxRegs} {b : Byte} {o : Decoded}
    (h : decodeStep c r b = .ok (r', o)) :
    (r.state = .idle ∧ o = .pending ∧ r' = { r with addr := b, acc := b, state := .awType }) ∨
    (r.state = .awType ∧ o = .pending ∧ r' = { r with mtype := b, acc := r.acc ^^^ b, state := .awLen }) ∨
    (r.state = .awLen ∧ b = 0#8 ∧ o = .ready ⟨r.addr, r.mtype, 0, []⟩ ∧
      r' = { r with len := b, acc := r.acc ^^^ b, state := .frameReady }) ∨
    (r.state = .awLen ∧ b ≠ 0#8 ∧ c.maxPayload < b.toNat ∧ o = .errLength ∧
      r' = { r with len := b, acc := r.acc ^^^ b, state := .error }) ∨
    (r.state = .awLen ∧ b ≠ 0#8 ∧ b.toNat ≤ c.maxPayload ∧ o = .pending ∧
      r' = { r with len := b, acc := r.acc ^^^ b, rem := b, state := .awPayload }) ∨
    (r.state = .awPayload ∧ (r.len - r.rem).toNat < c.maxPayload ∧ 1 < r.rem.toNat ∧ o = .pending ∧
      r' = { r with buf := Memory.write r.buf (r.len - r.rem).toNat b, acc := r.acc ^^^ b, rem := r.rem - 1 }) ∨
    (r.state = .awPayload ∧ (r.len - r.rem).toNat < c.maxPayload ∧ r.rem.toNat ≤ 1 ∧ o = .pending ∧
      r' = { r with buf := Memory.write r.buf (r.len - r.rem).toNat b, acc := r.acc ^^^ b, rem := 0,
                    state := .awCksum }) ∨
    (r.state = .awCksum ∧ b = r.acc ∧ (∃ p, memReadRange .rxBuf c.maxPayload r.buf 0 r.len.toNat = .ok p ∧
      o = .ready ⟨r.addr, r.mtype, r.len, p⟩) ∧ r' = { r with state := .frameReady }) ∨
    (r.state = .awCksum ∧ b ≠ r.acc ∧ o = .errChecksum ∧ r' = { r with state := .error }) ∨
    (heldBetweenEvents r.state = false ∧ o = .pending ∧ r' = { r with state := .idle }) := by
  unfold decodeStep at h
  split at h <;> rename_i hs
  · simp only [decodeAddress, Except.ok.injEq, Prod.mk.injEq] at h
    exact .inl ⟨hs, h.2.symm, h.1.symm⟩
  · simp only [decodeType, Except.ok.injEq, Prod.mk.injEq] at h
    exact .inr (.inl ⟨hs, h.2.symm, h.1.symm⟩)
  · simp only [decodeLength] at h
    split at h
    · rename_i hb
      simp only [Except.ok.injEq, Prod.mk.injEq] at h
      exact .inr (.inr (.inl ⟨hs, hb, h.2.symm, h.1.symm⟩))
    · rename_i hb
      split at h
      · rename_i hl
        simp only [Except.ok.injEq, Prod.mk.injEq] at h
        exact .inr (.inr (.inr (.inl ⟨hs, hb, hl, h.2.symm, h.1.symm⟩)))
      · rename_i hl
        simp only [Except.ok.injEq, Prod.mk.injEq] at h
        exact .inr (.inr (.inr (.inr (.inl ⟨hs, hb, Nat.not_lt.1 hl, h.2.symm, h.1.symm⟩))))
  · simp only [decodePayload] at h
    split at h
    · cases h
    · rename_i m hm
      obtain ⟨hi, rfl⟩ := memWrite_ok.1 hm
      split at h
      · rename_i hr
        simp only [Except.ok.injEq, Prod.mk.injEq] at h
        exact .inr (.inr (.inr (.inr (.inr (.inl ⟨hs, hi, hr, h.2.symm, h.1.symm⟩)))))
      · rename_i hr
        simp only [Except.ok.injEq, Prod.mk.injEq] at h
        exact .inr (.inr (.inr (.inr (.inr (.inr (.inl ⟨hs, hi, by omega, h.2.symm, h.1.symm⟩))))))
  · simp only [decodeChecksum] at h
    split at h
    · rename_i hb
      split at h
      · cases h
      · rename_i p hp
        simp only [Except.ok.injEq, Prod.mk.injEq] at h
        exact .inr (.inr (.inr (.inr (.inr (.inr (.inr (.inl ⟨hs, hb, ⟨p, hp, h.2.symm⟩, h.1.symm⟩)))))))
    · rename_i hb
      simp only [Except.ok.injEq, Prod.mk.injEq] at h
      exact .inr (.inr (.inr (.inr (.inr (.inr (.inr (.inr (.inl ⟨hs, hb, h.2.symm, h.1.symm⟩))))))))
  all_goals
    simp only [Except.ok.injEq, Prod.mk.injEq] at h
    exact .inr (.inr (.inr (.inr (.inr (.inr (.inr (.inr (.inr ⟨by rw [hs]; rfl, h.2.symm, h.1.symm⟩))))))))

end Sys2Proof.Machine
end

