-- ==== Sys2Proof/Laws/State.lean ====
section
/-! SUPPORT. The small lemmas of the state's named updates: one per field per update, true by rfl. -/

namespace Sys2Proof.Machine

@[simp] theorem raise_cfg (e : EngineError) (s : State) : (raise e s).cfg = s.cfg := rfl
@[simp] theorem raise_rx (e : EngineError) (s : State) : (raise e s).rx = s.rx := rfl
@[simp] theorem raise_snt (e : EngineError) (s : State) : (raise e s).snt = s.snt := rfl
@[simp] theorem raise_rxEn (e : EngineError) (s : State) : (raise e s).rxEn = s.rxEn := rfl
@[simp] theorem raise_dir (e : EngineError) (s : State) : (raise e s).dir = s.dir := rfl
@[simp] theorem raise_tx (e : EngineError) (s : State) : (raise e s).tx = s.tx := rfl
@[simp] theorem raise_cnt (e : EngineError) (s : State) : (raise e s).cnt = s.cnt.count e := rfl
@[simp] theorem raise_rq (e : EngineError) (s : State) : (raise e s).rq = s.rq := rfl
@[simp] theorem raise_utxFifo (e : EngineError) (s : State) : (raise e s).utxFifo = s.utxFifo := rfl
@[simp] theorem raise_busOut (e : EngineError) (s : State) : (raise e s).busOut = s.busOut := rfl
@[simp] theorem raise_outputs (e : EngineError) (s : State) : (raise e s).outputs = s.outputs := rfl
@[simp] theorem raise_trace (e : EngineError) (s : State) : (raise e s).trace = s.trace := rfl
@[simp] theorem raise_free (e : EngineError) (s : State) : (raise e s).free = s.free := rfl

@[simp] theorem setFsm_cfg (x : RxState) (s : State) : (setFsm x s).cfg = s.cfg := rfl
@[simp] theorem setFsm_rx (x : RxState) (s : State) : (setFsm x s).rx = { s.rx with state := x } := rfl
@[simp] theorem setFsm_snt (x : RxState) (s : State) : (setFsm x s).snt = s.snt := rfl
@[simp] theorem setFsm_rxEn (x : RxState) (s : State) : (setFsm x s).rxEn = s.rxEn := rfl
@[simp] theorem setFsm_dir (x : RxState) (s : State) : (setFsm x s).dir = s.dir := rfl
@[simp] theorem setFsm_tx (x : RxState) (s : State) : (setFsm x s).tx = s.tx := rfl
@[simp] theorem setFsm_cnt (x : RxState) (s : State) : (setFsm x s).cnt = s.cnt := rfl
@[simp] theorem setFsm_rq (x : RxState) (s : State) : (setFsm x s).rq = s.rq := rfl
@[simp] theorem setFsm_utxFifo (x : RxState) (s : State) : (setFsm x s).utxFifo = s.utxFifo := rfl
@[simp] theorem setFsm_busOut (x : RxState) (s : State) : (setFsm x s).busOut = s.busOut := rfl
@[simp] theorem setFsm_outputs (x : RxState) (s : State) : (setFsm x s).outputs = s.outputs := rfl
@[simp] theorem setFsm_trace (x : RxState) (s : State) : (setFsm x s).trace = s.trace := rfl
@[simp] theorem setFsm_free (x : RxState) (s : State) : (setFsm x s).free = s.free := rfl

@[simp] theorem enqueue_cfg (f : Frame) (s : State) : (enqueue f s).cfg = s.cfg := rfl
@[simp] theorem enqueue_rx (f : Frame) (s : State) : (enqueue f s).rx = s.rx := rfl
@[simp] theorem enqueue_snt (f : Frame) (s : State) : (enqueue f s).snt = s.snt := rfl
@[simp] theorem enqueue_rxEn (f : Frame) (s : State) : (enqueue f s).rxEn = s.rxEn := rfl
@[simp] theorem enqueue_dir (f : Frame) (s : State) : (enqueue f s).dir = s.dir := rfl
@[simp] theorem enqueue_tx (f : Frame) (s : State) : (enqueue f s).tx = s.tx := rfl
@[simp] theorem enqueue_cnt (f : Frame) (s : State) : (enqueue f s).cnt = s.cnt := rfl
@[simp] theorem enqueue_rq (f : Frame) (s : State) : (enqueue f s).rq = s.rq ++ [f] := rfl
@[simp] theorem enqueue_utxFifo (f : Frame) (s : State) : (enqueue f s).utxFifo = s.utxFifo := rfl
@[simp] theorem enqueue_busOut (f : Frame) (s : State) : (enqueue f s).busOut = s.busOut := rfl
@[simp] theorem enqueue_outputs (f : Frame) (s : State) : (enqueue f s).outputs = s.outputs := rfl
@[simp] theorem enqueue_trace (f : Frame) (s : State) : (enqueue f s).trace = s.trace := rfl
@[simp] theorem enqueue_free (f : Frame) (s : State) : (enqueue f s).free = s.free := rfl

@[simp] theorem pushFifo_cfg (b : Byte) (s : State) : (pushFifo b s).cfg = s.cfg := rfl
@[simp] theorem pushFifo_rx (b : Byte) (s : State) : (pushFifo b s).rx = s.rx := rfl
@[simp] theorem pushFifo_snt (b : Byte) (s : State) : (pushFifo b s).snt = s.snt := rfl
@[simp] theorem pushFifo_rxEn (b : Byte) (s : State) : (pushFifo b s).rxEn = s.rxEn := rfl
@[simp] theorem pushFifo_dir (b : Byte) (s : State) : (pushFifo b s).dir = s.dir := rfl
@[simp] theorem pushFifo_tx (b : Byte) (s : State) : (pushFifo b s).tx = s.tx := rfl
@[simp] theorem pushFifo_cnt (b : Byte) (s : State) : (pushFifo b s).cnt = s.cnt := rfl
@[simp] theorem pushFifo_rq (b : Byte) (s : State) : (pushFifo b s).rq = s.rq := rfl
@[simp] theorem pushFifo_utxFifo (b : Byte) (s : State) : (pushFifo b s).utxFifo = s.utxFifo ++ [b] := rfl
@[simp] theorem pushFifo_busOut (b : Byte) (s : State) : (pushFifo b s).busOut = s.busOut := rfl
@[simp] theorem pushFifo_outputs (b : Byte) (s : State) : (pushFifo b s).outputs = s.outputs := rfl
@[simp] theorem pushFifo_trace (b : Byte) (s : State) : (pushFifo b s).trace = s.trace := rfl
@[simp] theorem pushFifo_free (b : Byte) (s : State) : (pushFifo b s).free = s.free := rfl

@[simp] theorem emit_cfg (o : Output) (s : State) : (emit o s).cfg = s.cfg := rfl
@[simp] theorem emit_rx (o : Output) (s : State) : (emit o s).rx = s.rx := rfl
@[simp] theorem emit_snt (o : Output) (s : State) : (emit o s).snt = s.snt := rfl
@[simp] theorem emit_rxEn (o : Output) (s : State) : (emit o s).rxEn = s.rxEn := rfl
@[simp] theorem emit_dir (o : Output) (s : State) : (emit o s).dir = s.dir := rfl
@[simp] theorem emit_tx (o : Output) (s : State) : (emit o s).tx = s.tx := rfl
@[simp] theorem emit_cnt (o : Output) (s : State) : (emit o s).cnt = s.cnt := rfl
@[simp] theorem emit_rq (o : Output) (s : State) : (emit o s).rq = s.rq := rfl
@[simp] theorem emit_utxFifo (o : Output) (s : State) : (emit o s).utxFifo = s.utxFifo := rfl
@[simp] theorem emit_busOut (o : Output) (s : State) : (emit o s).busOut = s.busOut := rfl
@[simp] theorem emit_outputs (o : Output) (s : State) : (emit o s).outputs = s.outputs ++ [o] := rfl
@[simp] theorem emit_trace (o : Output) (s : State) : (emit o s).trace = s.trace := rfl
@[simp] theorem emit_free (o : Output) (s : State) : (emit o s).free = s.free := rfl

@[simp] theorem enableTransmit_cfg (s : State) : (enableTransmit s).cfg = s.cfg := rfl
@[simp] theorem enableTransmit_rx (s : State) : (enableTransmit s).rx = s.rx := rfl
@[simp] theorem enableTransmit_snt (s : State) : (enableTransmit s).snt = s.snt := rfl
@[simp] theorem enableTransmit_rxEn (s : State) : (enableTransmit s).rxEn = s.rxEn := rfl
@[simp] theorem enableTransmit_dir (s : State) : (enableTransmit s).dir = .transmit := rfl
@[simp] theorem enableTransmit_tx (s : State) : (enableTransmit s).tx = s.tx := rfl
@[simp] theorem enableTransmit_cnt (s : State) : (enableTransmit s).cnt = s.cnt := rfl
@[simp] theorem enableTransmit_rq (s : State) : (enableTransmit s).rq = s.rq := rfl
@[simp] theorem enableTransmit_utxFifo (s : State) : (enableTransmit s).utxFifo = s.utxFifo := rfl
@[simp] theorem enableTransmit_busOut (s : State) : (enableTransmit s).busOut = s.busOut := rfl
@[simp] theorem enableTransmit_outputs (s : State) : (enableTransmit s).outputs = s.outputs := rfl
@[simp] theorem enableTransmit_trace (s : State) : (enableTransmit s).trace = s.trace := rfl
@[simp] theorem enableTransmit_free (s : State) : (enableTransmit s).free = s.free := rfl

@[simp] theorem enableReceive_cfg (s : State) : (enableReceive s).cfg = s.cfg := rfl
@[simp] theorem enableReceive_rx (s : State) : (enableReceive s).rx = s.rx := rfl
@[simp] theorem enableReceive_snt (s : State) : (enableReceive s).snt = s.snt := rfl
@[simp] theorem enableReceive_rxEn (s : State) : (enableReceive s).rxEn = s.rxEn := rfl
@[simp] theorem enableReceive_dir (s : State) : (enableReceive s).dir = .receive := rfl
@[simp] theorem enableReceive_tx (s : State) : (enableReceive s).tx = s.tx := rfl
@[simp] theorem enableReceive_cnt (s : State) : (enableReceive s).cnt = s.cnt := rfl
@[simp] theorem enableReceive_rq (s : State) : (enableReceive s).rq = s.rq := rfl
@[simp] theorem enableReceive_utxFifo (s : State) : (enableReceive s).utxFifo = s.utxFifo := rfl
@[simp] theorem enableReceive_busOut (s : State) : (enableReceive s).busOut = s.busOut := rfl
@[simp] theorem enableReceive_outputs (s : State) : (enableReceive s).outputs = s.outputs := rfl
@[simp] theorem enableReceive_trace (s : State) : (enableReceive s).trace = s.trace := rfl
@[simp] theorem enableReceive_free (s : State) : (enableReceive s).free = s.free := rfl

@[simp] theorem countFrame_cfg (s : State) : (countFrame s).cfg = s.cfg := rfl
@[simp] theorem countFrame_rx (s : State) : (countFrame s).rx = s.rx := rfl
@[simp] theorem countFrame_snt (s : State) : (countFrame s).snt = s.snt := rfl
@[simp] theorem countFrame_rxEn (s : State) : (countFrame s).rxEn = s.rxEn := rfl
@[simp] theorem countFrame_dir (s : State) : (countFrame s).dir = s.dir := rfl
@[simp] theorem countFrame_tx (s : State) : (countFrame s).tx = s.tx := rfl
@[simp] theorem countFrame_cnt (s : State) : (countFrame s).cnt = { s.cnt with frames := s.cnt.frames + 1 } := rfl
@[simp] theorem countFrame_rq (s : State) : (countFrame s).rq = s.rq := rfl
@[simp] theorem countFrame_utxFifo (s : State) : (countFrame s).utxFifo = s.utxFifo := rfl
@[simp] theorem countFrame_busOut (s : State) : (countFrame s).busOut = s.busOut := rfl
@[simp] theorem countFrame_outputs (s : State) : (countFrame s).outputs = s.outputs := rfl
@[simp] theorem countFrame_trace (s : State) : (countFrame s).trace = s.trace := rfl
@[simp] theorem countFrame_free (s : State) : (countFrame s).free = s.free := rfl

@[simp] theorem safetyNetAfterByte_cfg (p : RxState) (s : State) : (safetyNetAfterByte p s).cfg = s.cfg := rfl
@[simp] theorem safetyNetAfterByte_rx (p : RxState) (s : State) : (safetyNetAfterByte p s).rx = s.rx := rfl
@[simp] theorem safetyNetAfterByte_snt (p : RxState) (s : State) :
    (safetyNetAfterByte p s).snt = sntAfterByte s.cfg p s.rx.state s.snt := rfl
@[simp] theorem safetyNetAfterByte_rxEn (p : RxState) (s : State) : (safetyNetAfterByte p s).rxEn = s.rxEn := rfl
@[simp] theorem safetyNetAfterByte_dir (p : RxState) (s : State) : (safetyNetAfterByte p s).dir = s.dir := rfl
@[simp] theorem safetyNetAfterByte_tx (p : RxState) (s : State) : (safetyNetAfterByte p s).tx = s.tx := rfl
@[simp] theorem safetyNetAfterByte_cnt (p : RxState) (s : State) : (safetyNetAfterByte p s).cnt = s.cnt := rfl
@[simp] theorem safetyNetAfterByte_rq (p : RxState) (s : State) : (safetyNetAfterByte p s).rq = s.rq := rfl
@[simp] theorem safetyNetAfterByte_utxFifo (p : RxState) (s : State) :
    (safetyNetAfterByte p s).utxFifo = s.utxFifo := rfl
@[simp] theorem safetyNetAfterByte_busOut (p : RxState) (s : State) :
    (safetyNetAfterByte p s).busOut = s.busOut := rfl
@[simp] theorem safetyNetAfterByte_outputs (p : RxState) (s : State) :
    (safetyNetAfterByte p s).outputs = s.outputs := rfl
@[simp] theorem safetyNetAfterByte_trace (p : RxState) (s : State) : (safetyNetAfterByte p s).trace = s.trace := rfl
@[simp] theorem safetyNetAfterByte_free (p : RxState) (s : State) : (safetyNetAfterByte p s).free = s.free := rfl

@[simp] theorem safetyNetFire_cfg (s : State) : (safetyNetFire s).cfg = s.cfg := rfl
@[simp] theorem safetyNetFire_rx (s : State) : (safetyNetFire s).rx = { s.rx with state := .idle } := rfl
@[simp] theorem safetyNetFire_snt (s : State) : (safetyNetFire s).snt = { s.snt with armed := false } := rfl
@[simp] theorem safetyNetFire_rxEn (s : State) : (safetyNetFire s).rxEn = s.rxEn := rfl
@[simp] theorem safetyNetFire_dir (s : State) : (safetyNetFire s).dir = s.dir := rfl
@[simp] theorem safetyNetFire_tx (s : State) : (safetyNetFire s).tx = s.tx := rfl
@[simp] theorem safetyNetFire_cnt (s : State) : (safetyNetFire s).cnt = s.cnt.count .desync := rfl
@[simp] theorem safetyNetFire_rq (s : State) : (safetyNetFire s).rq = s.rq := rfl
@[simp] theorem safetyNetFire_utxFifo (s : State) : (safetyNetFire s).utxFifo = s.utxFifo := rfl
@[simp] theorem safetyNetFire_busOut (s : State) : (safetyNetFire s).busOut = s.busOut := rfl
@[simp] theorem safetyNetFire_outputs (s : State) : (safetyNetFire s).outputs = s.outputs := rfl
@[simp] theorem safetyNetFire_trace (s : State) : (safetyNetFire s).trace = s.trace := rfl
@[simp] theorem safetyNetFire_free (s : State) : (safetyNetFire s).free = s.free := rfl

@[simp] theorem count_checksum_frames (c : Stats) : (c.count .checksum).frames = c.frames := rfl
@[simp] theorem count_checksum_cksumErr (c : Stats) : (c.count .checksum).cksumErr = c.cksumErr + 1 := rfl
@[simp] theorem count_checksum_desync (c : Stats) : (c.count .checksum).desync = c.desync := rfl
@[simp] theorem count_checksum_lenErr (c : Stats) : (c.count .checksum).lenErr = c.lenErr := rfl
@[simp] theorem count_checksum_fault (c : Stats) : (c.count .checksum).fault = c.fault := rfl
@[simp] theorem count_checksum_qovf (c : Stats) : (c.count .checksum).qovf = c.qovf := rfl

@[simp] theorem count_length_frames (c : Stats) : (c.count .length).frames = c.frames := rfl
@[simp] theorem count_length_cksumErr (c : Stats) : (c.count .length).cksumErr = c.cksumErr := rfl
@[simp] theorem count_length_desync (c : Stats) : (c.count .length).desync = c.desync := rfl
@[simp] theorem count_length_lenErr (c : Stats) : (c.count .length).lenErr = c.lenErr + 1 := rfl
@[simp] theorem count_length_fault (c : Stats) : (c.count .length).fault = c.fault := rfl
@[simp] theorem count_length_qovf (c : Stats) : (c.count .length).qovf = c.qovf := rfl

@[simp] theorem count_desync_frames (c : Stats) : (c.count .desync).frames = c.frames := rfl
@[simp] theorem count_desync_cksumErr (c : Stats) : (c.count .desync).cksumErr = c.cksumErr := rfl
@[simp] theorem count_desync_desync (c : Stats) : (c.count .desync).desync = c.desync + 1 := rfl
@[simp] theorem count_desync_lenErr (c : Stats) : (c.count .desync).lenErr = c.lenErr := rfl
@[simp] theorem count_desync_fault (c : Stats) : (c.count .desync).fault = c.fault := rfl
@[simp] theorem count_desync_qovf (c : Stats) : (c.count .desync).qovf = c.qovf := rfl

@[simp] theorem count_txMisuse_frames (c : Stats) : (c.count .txMisuse).frames = c.frames := rfl
@[simp] theorem count_txMisuse_cksumErr (c : Stats) : (c.count .txMisuse).cksumErr = c.cksumErr := rfl
@[simp] theorem count_txMisuse_desync (c : Stats) : (c.count .txMisuse).desync = c.desync := rfl
@[simp] theorem count_txMisuse_lenErr (c : Stats) : (c.count .txMisuse).lenErr = c.lenErr := rfl
@[simp] theorem count_txMisuse_fault (c : Stats) : (c.count .txMisuse).fault = c.fault + 1 := rfl
@[simp] theorem count_txMisuse_qovf (c : Stats) : (c.count .txMisuse).qovf = c.qovf := rfl

@[simp] theorem count_queueFull_frames (c : Stats) : (c.count .queueFull).frames = c.frames := rfl
@[simp] theorem count_queueFull_cksumErr (c : Stats) : (c.count .queueFull).cksumErr = c.cksumErr := rfl
@[simp] theorem count_queueFull_desync (c : Stats) : (c.count .queueFull).desync = c.desync := rfl
@[simp] theorem count_queueFull_lenErr (c : Stats) : (c.count .queueFull).lenErr = c.lenErr := rfl
@[simp] theorem count_queueFull_fault (c : Stats) : (c.count .queueFull).fault = c.fault := rfl
@[simp] theorem count_queueFull_qovf (c : Stats) : (c.count .queueFull).qovf = c.qovf + 1 := rfl

@[simp] theorem resetWith_cfg (c : Config) : (State.resetWith c).cfg = c := rfl
@[simp] theorem resetWith_snt (c : Config) : (State.resetWith c).snt = ⟨false, 0⟩ := rfl
@[simp] theorem resetWith_rxEn (c : Config) : (State.resetWith c).rxEn = true := rfl
@[simp] theorem resetWith_dir (c : Config) : (State.resetWith c).dir = .receive := rfl
@[simp] theorem resetWith_cnt (c : Config) : (State.resetWith c).cnt = Stats.zero := rfl
@[simp] theorem resetWith_rq (c : Config) : (State.resetWith c).rq = [] := rfl
@[simp] theorem resetWith_utxFifo (c : Config) : (State.resetWith c).utxFifo = [] := rfl
@[simp] theorem resetWith_busOut (c : Config) : (State.resetWith c).busOut = [] := rfl
@[simp] theorem resetWith_outputs (c : Config) : (State.resetWith c).outputs = [] := rfl
@[simp] theorem resetWith_trace (c : Config) : (State.resetWith c).trace = [] := rfl
@[simp] theorem resetWith_free (c : Config) : (State.resetWith c).free = 0 := rfl
@[simp] theorem resetWith_rx (c : Config) : (State.resetWith c).rx = ⟨.idle, 0, 0, 0, 0, 0, []⟩ := rfl
@[simp] theorem resetWith_tx (c : Config) : (State.resetWith c).tx = ⟨false, 0, 0, [], 0, 0, false⟩ := rfl
@[simp] theorem reset_eq : State.reset = State.resetWith Config.p0 := rfl

end Sys2Proof.Machine
end

