-- ==== Sys2Proof/Laws/Receive.lean ====
section
/-! SUPPORT. Everything a received byte can do to the state: the exit of a decode step, the safety net, and the
inversion of `rxByte`. -/

namespace Sys2Proof.Machine

@[simp] theorem deliver_cfg (f : Frame) (s : State) : (deliver f s).cfg = s.cfg := by
  unfold deliver; split <;> rfl

@[simp] theorem deliver_rx (f : Frame) (s : State) : (deliver f s).rx = s.rx := by
  unfold deliver; split <;> rfl

/-- The address filter (spec/41_receive.md R106). -/
theorem accept_iff (c : Config) (a : Byte) : accept c a = true ↔ a = c.myAddr ∨ a = 0#8 := by
  simp [accept]

/-- The registers after the FRAME_READY or ERROR exit. -/
@[simp] theorem rxExit_rx (o : Decoded) (s : State) : (rxExit o s).rx = exitToIdle s.rx o := by
  cases o with
  | ready f => simp only [rxExit, setFsm, exitToIdle]; split <;> simp
  | _ => rfl

/-- The counters after the exit (spec/41_receive.md R103, R104, R107). -/
@[simp] theorem rxExit_cnt (o : Decoded) (s : State) : (rxExit o s).cnt =
    match o with
    | .pending => s.cnt
    | .ready f =>
      { s.cnt with
        frames := s.cnt.frames + 1
        qovf := if (f.addr = s.cfg.myAddr ∨ f.addr = 0#8) ∧ s.cfg.reqQueueDepth ≤ s.rq.length
          then s.cnt.qovf + 1 else s.cnt.qovf }
    | .errLength => { s.cnt with lenErr := s.cnt.lenErr + 1 }
    | .errChecksum => { s.cnt with cksumErr := s.cnt.cksumErr + 1 } := by
  cases o with
  | ready f =>
    by_cases ha : f.addr = s.cfg.myAddr ∨ f.addr = 0#8 <;> by_cases hq : s.cfg.reqQueueDepth ≤ s.rq.length
    · simp [rxExit, accept, ha, deliver, Nat.not_lt.2 hq, hq, raise, setFsm, countFrame, Stats.count]
    · simp [rxExit, accept, ha, deliver, Nat.not_le.1 hq, hq, setFsm, countFrame, enqueue]
    · simp [rxExit, accept, ha, setFsm, countFrame]
    · simp [rxExit, accept, ha, setFsm, countFrame]
  | _ => rfl

/-- The queue after the exit (spec/41_receive.md R105 to R107). -/
@[simp] theorem rxExit_rq (o : Decoded) (s : State) : (rxExit o s).rq =
    match o with
    | .ready f =>
      if (f.addr = s.cfg.myAddr ∨ f.addr = 0#8) ∧ s.rq.length < s.cfg.reqQueueDepth then s.rq ++ [f] else s.rq
    | _ => s.rq := by
  cases o with
  | ready f =>
    by_cases ha : f.addr = s.cfg.myAddr ∨ f.addr = 0#8 <;> by_cases hq : s.rq.length < s.cfg.reqQueueDepth
    · simp [rxExit, accept, ha, deliver, hq, setFsm, countFrame, enqueue]
    · simp [rxExit, accept, ha, deliver, hq, raise, setFsm, countFrame]
    · simp [rxExit, accept, ha, setFsm, countFrame]
    · simp [rxExit, accept, ha, setFsm, countFrame]
  | _ => rfl

/-- The exit writes receive registers, counters and the queue, and nothing else. -/
theorem rxExit_frame (o : Decoded) (s : State) :
    rxExit o s = { s with rx := (rxExit o s).rx, cnt := (rxExit o s).cnt, rq := (rxExit o s).rq } := by
  cases o with
  | ready f =>
    simp only [rxExit, setFsm, deliver]
    split
    · split <;> rfl
    · rfl
  | _ => rfl

@[simp] theorem rxExit_cfg (o : Decoded) (s : State) : (rxExit o s).cfg = s.cfg := by rw [rxExit_frame]
@[simp] theorem rxExit_snt (o : Decoded) (s : State) : (rxExit o s).snt = s.snt := by rw [rxExit_frame]
@[simp] theorem rxExit_rxEn (o : Decoded) (s : State) : (rxExit o s).rxEn = s.rxEn := by rw [rxExit_frame]
@[simp] theorem rxExit_dir (o : Decoded) (s : State) : (rxExit o s).dir = s.dir := by rw [rxExit_frame]
@[simp] theorem rxExit_tx (o : Decoded) (s : State) : (rxExit o s).tx = s.tx := by rw [rxExit_frame]
@[simp] theorem rxExit_utxFifo (o : Decoded) (s : State) : (rxExit o s).utxFifo = s.utxFifo := by rw [rxExit_frame]
@[simp] theorem rxExit_busOut (o : Decoded) (s : State) : (rxExit o s).busOut = s.busOut := by rw [rxExit_frame]
@[simp] theorem rxExit_outputs (o : Decoded) (s : State) : (rxExit o s).outputs = s.outputs := by rw [rxExit_frame]
@[simp] theorem rxExit_trace (o : Decoded) (s : State) : (rxExit o s).trace = s.trace := by rw [rxExit_frame]
@[simp] theorem rxExit_free (o : Decoded) (s : State) : (rxExit o s).free = s.free := by rw [rxExit_frame]

/-- Everything a received byte can do: nothing where reception is off, one accepted decode step where it is on. -/
theorem rxByte_next {b : Byte} {s t : State} (h : rxByte b s = .next t) :
    ((s.cfg.cfgEnable = false ∨ s.rxEn = false) ∧ t = s) ∨
    (s.cfg.cfgEnable = true ∧ s.rxEn = true ∧ ∃ r o, decodeStep s.cfg s.rx b = .ok (r, o) ∧
      t = safetyNetAfterByte s.rx.state (rxExit o { s with rx := r })) := by
  unfold rxByte at h
  split at h
  · rename_i hc
    cases h
    exact .inl ⟨.inl hc, rfl⟩
  · rename_i hc
    split at h
    · rename_i hr
      cases h
      exact .inl ⟨.inr hr, rfl⟩
    · rename_i hr
      simp only [rxAccept] at h
      split at h
      · cases h
      · rename_i r o hd
        cases h
        exact .inr ⟨by simpa using hc, by simpa using hr, r, o, hd, rfl⟩

theorem rxByte_of_off {b : Byte} {s : State} (h : s.cfg.cfgEnable = false ∨ s.rxEn = false) :
    rxByte b s = .next s := by
  unfold rxByte
  split
  · rfl
  · rename_i hc
    rcases h with h | h
    · exact absurd h hc
    · rw [if_pos h]

theorem rxByte_of_on {b : Byte} {s : State} {r : RxRegs} {o : Decoded} (hc : s.cfg.cfgEnable = true)
    (hr : s.rxEn = true) (hd : decodeStep s.cfg s.rx b = .ok (r, o)) :
    rxByte b s = .next (safetyNetAfterByte s.rx.state (rxExit o { s with rx := r })) := by
  simp [rxByte, hc, hr, rxAccept, hd]

/-- A received byte is refused never. -/
theorem rxByte_not_refused (b : Byte) (s : State) (r : Refusal) : rxByte b s ≠ .refused r := by
  unfold rxByte
  split
  · simp
  · split
    · simp
    · unfold rxAccept
      split <;> simp

end Sys2Proof.Machine
end

