-- ==== Sys2Proof/Laws/Transmit.lean ====
section
/-! SUPPORT. What `Load` does: it appends the next bytes of the response to the FIFO and moves `tx_idx`. -/

namespace Sys2Proof.Machine

/-- `tx_byte` does not read `tx_idx`. -/
@[simp] theorem txByte_idx (c : Config) (j : TxJob) (x : TxIndex) (i : Nat) :
    txByte c { j with idx := x } i = txByte c j i := rfl

theorem toNat_idx_succ (j : TxJob) (h : j.idx.toNat < j.total.toNat) : (j.idx + 1).toNat = j.idx.toNat + 1 := by
  have := j.total.isLt
  rw [BitVec.toNat_add]
  simp
  omega

/-- What the load loop answers: the bytes pushed, how many they are, and that each is the response's byte. -/
theorem loadLoop_ok : ∀ {fuel : Nat} {s t : State}, loadLoop fuel s = .ok t →
    ∃ bs : List Byte, bs.length = min fuel (min (s.tx.total.toNat - s.tx.idx.toNat)
        (s.cfg.txFifoDepth - s.utxFifo.length)) ∧
      t.tx.idx.toNat = s.tx.idx.toNat + bs.length ∧
      t = { s with utxFifo := s.utxFifo ++ bs, tx := { s.tx with idx := t.tx.idx } } ∧
      ∀ k : Nat, ∀ b, bs[k]? = some b → txByte s.cfg s.tx (s.tx.idx.toNat + k) = .ok b := by
  intro fuel
  induction fuel with
  | zero =>
    intro s t h
    simp only [loadLoop, Except.ok.injEq] at h
    subst h
    exact ⟨[], by simp, by simp, by simp, by simp⟩
  | succ fuel ih =>
    intro s t h
    simp only [loadLoop] at h
    split at h
    · rename_i hc
      split at h
      · cases h
      · rename_i b hb
        obtain ⟨bs, hl, hi, ht, hbs⟩ := ih h
        have hsucc := toNat_idx_succ s.tx hc.1
        simp only [pushFifo_utxFifo, pushFifo_cfg, List.length_append, List.length_cons, List.length_nil, hsucc] at hl hi
        refine ⟨b :: bs, ?_, ?_, ?_, ?_⟩
        · simp only [List.length_cons]
          omega
        · simp only [List.length_cons]
          omega
        · rw [ht]
          simp [pushFifo]
        · intro k c hk
          cases k with
          | zero =>
            simp only [List.getElem?_cons_zero, Option.some.injEq] at hk
            subst hk
            simpa using hb
          | succ k =>
            simp only [List.getElem?_cons_succ] at hk
            have := hbs k c hk
            simp only [pushFifo_cfg, txByte_idx, hsucc] at this
            rwa [show s.tx.idx.toNat + (k + 1) = s.tx.idx.toNat + 1 + k by omega]
    · rename_i hc
      simp only [Except.ok.injEq] at h
      subst h
      refine ⟨[], ?_, by simp, by simp, by simp⟩
      simp only [List.length_nil]
      omega

/-- The load loop does not fault where the bytes it may push are readable. -/
theorem loadLoop_total : ∀ {fuel : Nat} {s : State},
    (∀ k, s.tx.idx.toNat ≤ k → k < s.tx.total.toNat → ∃ b, txByte s.cfg s.tx k = .ok b) →
    ∃ t, loadLoop fuel s = .ok t := by
  intro fuel
  induction fuel with
  | zero => intro s _; exact ⟨s, rfl⟩
  | succ fuel ih =>
    intro s h
    simp only [loadLoop]
    split
    · rename_i hc
      obtain ⟨b, hb⟩ := h _ (Nat.le_refl _) hc.1
      rw [hb]
      refine ih ?_
      intro k h1 h2
      simp only [pushFifo_cfg, txByte_idx, toNat_idx_succ s.tx hc.1] at h1 h2 ⊢
      exact h k (by omega) h2
    · exact ⟨s, rfl⟩

/-- What `Load` answers. -/
theorem load_ok {s t : State} (h : load s = .ok t) :
    ∃ bs : List Byte, bs.length = min (s.tx.total.toNat - s.tx.idx.toNat) (s.cfg.txFifoDepth - s.utxFifo.length) ∧
      t.tx.idx.toNat = s.tx.idx.toNat + bs.length ∧
      t = { s with utxFifo := s.utxFifo ++ bs, tx := { s.tx with idx := t.tx.idx } } ∧
      ∀ k : Nat, ∀ b, bs[k]? = some b → txByte s.cfg s.tx (s.tx.idx.toNat + k) = .ok b := by
  obtain ⟨bs, hl, h1, h2, h3⟩ := loadLoop_ok h
  exact ⟨bs, by omega, h1, h2, h3⟩

theorem load_total {s : State}
    (h : ∀ k, s.tx.idx.toNat ≤ k → k < s.tx.total.toNat → ∃ b, txByte s.cfg s.tx k = .ok b) :
    ∃ t, load s = .ok t := loadLoop_total h

/-- `Load` where the response's bytes are a known list: it appends the next of them. -/
theorem load_bytes {s : State} {enc : List Byte} (hn : enc.length = s.tx.total.toNat)
    (hi : s.tx.idx.toNat ≤ s.tx.total.toNat)
    (hb : ∀ i : Nat, ∀ b, enc[i]? = some b → txByte s.cfg s.tx i = .ok b) :
    ∃ t, load s = .ok t ∧
      t.tx.idx.toNat = min s.tx.total.toNat (s.tx.idx.toNat + (s.cfg.txFifoDepth - s.utxFifo.length)) ∧
      t = { s with
        utxFifo := s.utxFifo ++ (enc.drop s.tx.idx.toNat).take (s.cfg.txFifoDepth - s.utxFifo.length)
        tx := { s.tx with idx := t.tx.idx } } := by
  obtain ⟨t, ht⟩ := load_total (s := s) (fun k _ hk => by
    have : k < enc.length := by omega
    exact ⟨enc[k], hb k _ (List.getElem?_eq_getElem this)⟩)
  refine ⟨t, ht, ?_⟩
  obtain ⟨bs, hl, h1, h2, h3⟩ := load_ok ht
  have hbs : bs = (enc.drop s.tx.idx.toNat).take (s.cfg.txFifoDepth - s.utxFifo.length) := by
    apply List.ext_getElem?
    intro k
    rcases Nat.lt_or_ge k bs.length with hk | hk
    · rw [List.getElem?_eq_getElem hk, List.getElem?_take_of_lt (by omega), List.getElem?_drop]
      have hlt : s.tx.idx.toNat + k < enc.length := by omega
      have h4 := h3 k _ (List.getElem?_eq_getElem hk)
      rw [hb _ _ (List.getElem?_eq_getElem hlt)] at h4
      rw [List.getElem?_eq_getElem hlt]
      simpa using h4.symm
    · rw [List.getElem?_eq_none hk, List.getElem?_eq_none]
      simp only [List.length_take, List.length_drop]
      omega
  refine ⟨by omega, ?_⟩
  rw [← hbs]
  exact h2

end Sys2Proof.Machine
end

