-- ==== Sys2Proof/Laws/Exec.lean ====
section
/-! SUPPORT. Everything each event can do, said once: one inversion lemma per event, for every state. -/

namespace Sys2Proof.Machine

/-- TICK (spec/41_receive.md R110, R111). -/
theorem execTick_next {s t : State} (h : execTick s = .next t) :
    ((s.cfg.cfgEnable = false ∨ s.snt.armed = false) ∧ t = s) ∨
    (s.cfg.cfgEnable = true ∧ s.snt.armed = true ∧ s.snt.count - 1 = 0 ∧ t = { s with
      rx := { s.rx with state := .idle }
      snt := ⟨false, 0⟩
      cnt := { s.cnt with desync := s.cnt.desync + 1 } }) ∨
    (s.cfg.cfgEnable = true ∧ s.snt.armed = true ∧ s.snt.count - 1 ≠ 0 ∧ t = { s with
      snt := ⟨true, s.snt.count - 1⟩ }) := by
  unfold execTick at h
  split at h
  · rename_i hc
    cases h
    exact .inl ⟨.inl hc, rfl⟩
  · rename_i hc
    split at h
    · rename_i ha
      split at h
      · rename_i h0
        cases h
        refine .inr (.inl ⟨by simpa using hc, ha, h0, ?_⟩)
        simp [safetyNetFire, raise, Stats.count, h0]
      · rename_i h0
        cases h
        exact .inr (.inr ⟨by simpa using hc, ha, h0, by simp [ha]⟩)
    · rename_i ha
      cases h
      exact .inl ⟨.inr (by simpa using ha), rfl⟩

/-- `tx_byte` on registers that hold a response with data (spec/40_codec.md R97, R98). -/
theorem txByte_data {c : Config} {j : TxJob} {m n : Byte} {p : List Byte} (hn : n ≠ 0#8) (hp : p.length = n.toNat)
    (hm : n.toNat ≤ c.maxPayload) (hl : j.len = n) (ht : j.mtype = m)
    (hb : ∀ k : Nat, ∀ b, p[k]? = some b → Memory.read j.buf k = b) {i : Nat} {b : Byte}
    (h : (encodeS2M c (.data m n p))[i]? = some b) : txByte c j i = .ok b := by
  have hi : i < n.toNat + 3 := by
    by_contra hge
    rw [List.getElem?_eq_none (by simp [encodeS2M, hn, hp]; omega)] at h
    cases h
  simp only [encodeS2M, if_neg hn, List.cons_append, List.nil_append] at h
  unfold txByte
  rw [hl, if_neg hn]
  match i with
  | 0 => simpa using h
  | 1 => simpa [ht] using h
  | i + 2 =>
    simp only [List.getElem?_cons_succ] at h
    rw [if_neg (by omega), if_neg (by omega)]
    split
    · rw [List.getElem?_append_left (by omega)] at h
      exact memRead_ok.2 ⟨by omega, hb _ _ h⟩
    · have hi' : i = p.length := by omega
      rw [hi', List.getElem?_append_right (Nat.le_refl _)] at h
      have hr := memReadRange_of_reads (which := .txBuf) (n := c.maxPayload) (p := p) (by omega) hb
      rw [hp] at hr
      rw [hr, ht]
      simpa using h

/-- The job an accepted TX_BEGIN starts has its bytes readable, so `Load` does not fault (spec/42_transmit.md R120). -/
theorem txByte_startJob {c : Config} {r : Response} {j : TxJob} (hw : r.wf = true)
    (hm : (responseLen r).toNat ≤ c.maxPayload) :
    (startJob c r j).len = responseLen r ∧
    (startJob c r j).total.toNat = (encodeS2M c r).length ∧
    ∀ i : Nat, ∀ b, (encodeS2M c r)[i]? = some b → txByte c (startJob c r j) i = .ok b := by
  cases r with
  | empty =>
    refine ⟨rfl, rfl, ?_⟩
    intro i b hb
    cases i with
    | zero => simpa [encodeS2M, txByte, startJob, setResponse] using hb
    | succ i => simp [encodeS2M] at hb
  | data m n p =>
    simp only [Response.wf, Bool.and_eq_true, decide_eq_true_eq] at hw
    simp only [responseLen] at hm
    have hn : n ≠ 0#8 := by
      rintro rfl
      simp at hw
    refine ⟨rfl, ?_, fun i b hb => txByte_data hn hw.2 hm rfl rfl (fun k b hk => ?_) hb⟩
    · have hlen : (encodeS2M c (.data m n p)).length = n.toNat + 3 := by
        simp [encodeS2M, hn, hw.2]
      rw [hlen]
      have := n.isLt
      simp only [startJob, responseLen, txTotalOf, hn, if_false, BitVec.toNat_add, BitVec.toNat_setWidth,
        show (3 : BitVec 9).toNat = 3 from rfl]
      omega
    · have := Memory.read_writeFrom p j.buf 0 k b hk
      simp only [Nat.zero_add] at this
      simpa [startJob, setResponse, ← hw.2] using this

/-- TX_BEGIN (spec/42_transmit.md R119, R120). -/
theorem execTxb_next {r : Response} {s t : State} (h : execTxb r s = .next t) :
    (s.cfg.cfgEnable = false ∧ t = { s with outputs := s.outputs ++ [.txbStatus .rejected] }) ∨
    (s.cfg.cfgEnable = true ∧ (s.tx.active = true ∨ s.dir = .transmit ∨ s.cfg.maxPayload < (responseLen r).toNat) ∧
      t = { s with cnt := { s.cnt with fault := s.cnt.fault + 1 }
                   outputs := s.outputs ++ [.txbStatus .rejected] }) ∨
    (s.cfg.cfgEnable = true ∧ s.tx.active = false ∧ s.dir = .receive ∧
      (responseLen r).toNat ≤ s.cfg.maxPayload ∧
      ∃ bs : List Byte, bs.length = min (startJob s.cfg r s.tx).total.toNat (s.cfg.txFifoDepth - s.utxFifo.length) ∧
        t.tx.idx.toNat = bs.length ∧
        (∀ k : Nat, ∀ b, bs[k]? = some b → txByte s.cfg (startJob s.cfg r s.tx) k = .ok b) ∧
        t = { s with
          tx := { startJob s.cfg r s.tx with idx := t.tx.idx }
          rxEn := false
          dir := .transmit
          utxFifo := s.utxFifo ++ bs
          outputs := s.outputs ++ [.txbStatus .accepted] }) := by
  unfold execTxb at h
  split at h
  · rename_i hc
    cases h
    exact .inl ⟨hc, rfl⟩
  · rename_i hc
    split at h
    · rename_i hm
      cases h
      refine .inr (.inl ⟨by simpa using hc, ?_, rfl⟩)
      simpa [txBeginMisuse, or_assoc] using hm
    · rename_i hm
      simp only [txBeginMisuse, Bool.or_eq_true, decide_eq_true_eq, not_or, Nat.not_lt, Bool.not_eq_true] at hm
      have hd : s.dir = .receive := by
        cases hdir : s.dir with
        | receive => rfl
        | transmit => exact absurd hdir hm.1.2
      simp only [txAccept] at h
      split at h
      · cases h
      · rename_i u hu
        cases h
        obtain ⟨bs, hl, hi, ht, hb⟩ := load_ok hu
        have h0 : (startJob s.cfg r s.tx).idx.toNat = 0 := by simp [startJob]
        simp only [enableTransmit_tx, enableTransmit_cfg, enableTransmit_utxFifo, h0, Nat.sub_zero, Nat.zero_add]
          at hl hi hb
        refine .inr (.inr ⟨by simpa using hc, hm.1.1, hd, hm.2, bs, hl, by simpa using hi, hb, ?_⟩)
        rw [ht]
        rfl

/-- An accepted TX_BEGIN does not fault. -/
theorem execTxb_accepted {r : Response} {s : State} (hc : s.cfg.cfgEnable = true) (ha : s.tx.active = false)
    (hd : s.dir = .receive) (hw : r.wf = true) (hm : (responseLen r).toNat ≤ s.cfg.maxPayload) :
    ∃ t, execTxb r s = .next t ∧
      t.tx.idx.toNat = min (encodeS2M s.cfg r).length (s.cfg.txFifoDepth - s.utxFifo.length) ∧
      t = { s with
        tx := { startJob s.cfg r s.tx with idx := t.tx.idx }
        rxEn := false
        dir := .transmit
        utxFifo := s.utxFifo ++ (encodeS2M s.cfg r).take (s.cfg.txFifoDepth - s.utxFifo.length)
        outputs := s.outputs ++ [.txbStatus .accepted] } := by
  obtain ⟨_, hj2, hj3⟩ := txByte_startJob (j := s.tx) hw hm
  have h0 : (startJob s.cfg r s.tx).idx.toNat = 0 := by simp [startJob]
  obtain ⟨u, hu, hi, he⟩ := load_bytes
    (s := enableTransmit { s with tx := startJob s.cfg r s.tx, rxEn := false }) (enc := encodeS2M s.cfg r)
    (by simpa using hj2.symm) (by simp [h0]) (by simpa using hj3)
  refine ⟨emit (.txbStatus .accepted) u, ?_, ?_, ?_⟩
  · have hmis : txBeginMisuse s (responseLen r) = false := by
      simp [txBeginMisuse, ha, hd, Nat.not_lt.2 hm]
    simp [execTxb, hc, hmis, txAccept, hu]
  · simpa [h0, hj2] using hi
  · rw [he]
    simp [emit, enableTransmit, h0]

/-- TX_SPACE (spec/42_transmit.md R122). -/
theorem execTxs_next {s t : State} (h : execTxs s = .next t) :
    s.tx.active = true ∧ s.utxFifo.length < s.cfg.txFifoDepth ∧
    ∃ bs : List Byte, bs.length = min (s.tx.total.toNat - s.tx.idx.toNat) (s.cfg.txFifoDepth - s.utxFifo.length) ∧
      t.tx.idx.toNat = s.tx.idx.toNat + bs.length ∧
      t = { s with utxFifo := s.utxFifo ++ bs, tx := { s.tx with idx := t.tx.idx } } ∧
      ∀ k : Nat, ∀ b, bs[k]? = some b → txByte s.cfg s.tx (s.tx.idx.toNat + k) = .ok b := by
  unfold execTxs at h
  split at h
  · rename_i he
    simp only [txSpaceEnabled, Bool.and_eq_true, decide_eq_true_eq] at he
    split at h
    · cases h
    · rename_i u hu
      cases h
      exact ⟨he.1, he.2, load_ok hu⟩
  · cases h

/-- LINE_OUT (spec/42_transmit.md R123). -/
theorem execLout_next {s t : State} (h : execLout s = .next t) :
    ∃ b rest, s.utxFifo = b :: rest ∧
      ((s.cfg.echo = true ∧ rxByte b { s with utxFifo := rest, busOut := s.busOut ++ [b] } = .next t) ∨
       (s.cfg.echo = false ∧ t = { s with utxFifo := rest, busOut := s.busOut ++ [b] })) := by
  unfold execLout at h
  split at h
  · cases h
  · rename_i b rest hf
    split at h
    · rename_i he
      exact ⟨b, rest, hf, .inl ⟨he, h⟩⟩
    · rename_i he
      cases h
      exact ⟨b, rest, hf, .inr ⟨by simpa using he, rfl⟩⟩

/-- LINE_OUT while reception is off: the echo is discarded (spec/42_transmit.md R124). -/
theorem execLout_of_rxOff {s : State} {b : Byte} {rest : List Byte} (hf : s.utxFifo = b :: rest)
    (hr : s.rxEn = false) :
    execLout s = .next { s with utxFifo := rest, busOut := s.busOut ++ [b] } := by
  have hoff := rxByte_of_off (b := b) (s := { s with utxFifo := rest, busOut := s.busOut ++ [b] }) (.inr hr)
  unfold execLout
  rw [hf]
  simp only
  rw [hoff]
  split <;> rfl

/-- TX_DONE (spec/42_transmit.md R125). -/
theorem execTxd_next {s t : State} (h : execTxd s = .next t) :
    s.tx.active = true ∧ s.tx.idx = s.tx.total ∧ s.utxFifo = [] ∧
    t = { s with tx := { s.tx with active := false, echoPending := false }, dir := .receive, rxEn := true } := by
  unfold execTxd at h
  split at h
  · rename_i he
    simp only [txDoneEnabled, Bool.and_eq_true, decide_eq_true_eq, List.isEmpty_iff] at he
    cases h
    exact ⟨he.1.1, he.1.2, he.2, rfl⟩
  · cases h

/-- POP (spec/44_host.md R137). -/
theorem execPop_next {s t : State} (h : execPop s = .next t) :
    (s.rq = [] ∧ t = { s with outputs := s.outputs ++ [.popResult none] }) ∨
    (∃ f rest, s.rq = f :: rest ∧ t = { s with rq := rest, outputs := s.outputs ++ [.popResult (some f)] }) := by
  unfold execPop at h
  split at h
  · rename_i hq
    cases h
    exact .inl ⟨hq, rfl⟩
  · rename_i f rest hq
    cases h
    exact .inr ⟨f, rest, hq, rfl⟩

/-- A step is the fetch and then the event. -/
theorem step_next {s t : State} (h : step s = .next t) :
    ∃ i rest, configOk s.cfg = true ∧ decode s.trace = .ok (i, rest) ∧ exec i { s with trace := rest } = .next t := by
  unfold step at h
  split at h
  · cases h
  · rename_i i u hf
    unfold fetch at hf
    split at hf
    · rename_i hc
      split at hf
      · cases hf
      · rename_i j rest hd
        simp only [Except.ok.injEq, Prod.mk.injEq] at hf
        obtain ⟨rfl, rfl⟩ := hf
        exact ⟨_, _, hc, hd, h⟩
    · cases hf

end Sys2Proof.Machine
end

