-- ==== Sys2Proof/Laws/Buffers.lean ====
section
/-! SUPPORT. The canonical form of the payload buffers: it holds at reset and every event keeps it. -/

namespace Sys2Proof.Machine

theorem reset_buffers_wf : Memory.wf State.reset.rx.buf = true ∧ Memory.wf State.reset.tx.buf = true := ⟨rfl, rfl⟩

theorem memWrite_wf {which : Buffer} {n : Nat} {m m' : Memory} {i : Nat} {b : Byte} (h : memWrite which n m i b = .ok m')
    (hw : m.wf = true) : m'.wf = true := by
  obtain ⟨_, rfl⟩ := memWrite_ok.1 h
  exact Memory.write_wf _ _ _ hw

/-- A received byte keeps `rx_buf` canonical and does not touch `tx_buf`. -/
theorem rxByte_wf {b : Byte} {s t : State} (h : rxByte b s = .next t) (hw : Memory.wf s.rx.buf = true) :
    Memory.wf t.rx.buf = true ∧ t.tx = s.tx := by
  rcases rxByte_next h with ⟨_, rfl⟩ | ⟨_, _, r, o, hd, rfl⟩
  · exact ⟨hw, rfl⟩
  · have hr : Memory.wf r.buf = true := by
      rcases decodeStep_ok hd with ⟨_, rfl, rfl⟩ | ⟨_, rfl, rfl⟩ | ⟨_, rfl, rfl, rfl⟩ | ⟨_, _, _, rfl, rfl⟩ |
        ⟨_, _, _, rfl, rfl⟩ | ⟨_, _, _, rfl, rfl⟩ | ⟨_, _, _, rfl, rfl⟩ | ⟨_, rfl, ⟨p, _, rfl⟩, rfl⟩ |
        ⟨_, _, rfl, rfl⟩ | ⟨_, rfl, rfl⟩
      all_goals first | exact hw | exact Memory.write_wf _ _ _ hw
    refine ⟨?_, by simp [safetyNetAfterByte]⟩
    simp only [safetyNetAfterByte, rxExit_rx]
    cases o <;> exact hr

/-- Every event keeps both buffers in canonical form, in every state. -/
theorem exec_wf {i : Instr} {s t : State} (h1 : Memory.wf s.rx.buf = true) (h2 : Memory.wf s.tx.buf = true)
    (h : exec i s = .next t) : Memory.wf t.rx.buf = true ∧ Memory.wf t.tx.buf = true := by
  cases i with
  | rxb b =>
    obtain ⟨h3, h4⟩ := rxByte_wf h h1
    exact ⟨h3, h4 ▸ h2⟩
  | tick => rcases execTick_next h with ⟨_, rfl⟩ | ⟨_, _, _, rfl⟩ | ⟨_, _, _, rfl⟩ <;> exact ⟨h1, h2⟩
  | txb r =>
    rcases execTxb_next h with ⟨_, rfl⟩ | ⟨_, _, rfl⟩ | ⟨_, _, _, _, bs, _, _, _, ht⟩
    · exact ⟨h1, h2⟩
    · exact ⟨h1, h2⟩
    · rw [ht]
      refine ⟨h1, ?_⟩
      cases r
      · exact h2
      · exact Memory.writeFrom_wf _ _ _ h2
  | arg b => cases h
  | txs =>
    obtain ⟨_, _, bs, _, _, ht, _⟩ := execTxs_next h
    rw [ht]
    exact ⟨h1, h2⟩
  | lout =>
    obtain ⟨b, rest, _, ⟨_, hx⟩ | ⟨_, rfl⟩⟩ := execLout_next h
    · obtain ⟨h3, h4⟩ := rxByte_wf hx h1
      exact ⟨h3, h4 ▸ h2⟩
    · exact ⟨h1, h2⟩
  | txd =>
    obtain ⟨_, _, _, rfl⟩ := execTxd_next h
    exact ⟨h1, h2⟩
  | pop => rcases execPop_next h with ⟨_, rfl⟩ | ⟨f, rest, _, rfl⟩ <;> exact ⟨h1, h2⟩
  | stat sel =>
    cases h
    exact ⟨h1, h2⟩
  | rst =>
    cases h
    exact ⟨freeBuffer_wf _ _, freeBuffer_wf _ _⟩

end Sys2Proof.Machine
end

