-- ==== Sys2Proof/Laws/Bytes.lean ====
section
/-! SUPPORT. Bytes fed one after another: `decodeBytes` on two pieces, on a header and on payload bytes, and
`execAll` on two pieces. -/

namespace Sys2Proof.Machine

theorem toNat_sub_byte {a b : Byte} (h : b.toNat ≤ a.toNat) : (a - b).toNat = a.toNat - b.toNat := by
  have := a.isLt
  have := b.isLt
  rw [BitVec.toNat_sub]
  omega

/-- Two pieces of a byte stream decode one after the other. -/
theorem decodeBytes_append {c : Config} : ∀ {xs ys : List Byte} {r r1 r2 : RxRegs} {o1 o2 : List Decoded},
    decodeBytes c r xs = .ok (r1, o1) → decodeBytes c r1 ys = .ok (r2, o2) →
    decodeBytes c r (xs ++ ys) = .ok (r2, o1 ++ o2) := by
  intro xs
  induction xs with
  | nil =>
    intro ys r r1 r2 o1 o2 h1 h2
    simp only [decodeBytes, Except.ok.injEq, Prod.mk.injEq] at h1
    obtain ⟨rfl, rfl⟩ := h1
    exact h2
  | cons x xs ih =>
    intro ys r r1 r2 o1 o2 h1 h2
    simp only [decodeBytes] at h1
    split at h1
    · cases h1
    · rename_i r' o hd
      split at h1
      · cases h1
      · rename_i r'' os hd'
        simp only [Except.ok.injEq, Prod.mk.injEq] at h1
        obtain ⟨rfl, rfl⟩ := h1
        simp only [List.cons_append, decodeBytes, hd, ih hd' h2]

theorem decodeBytes_one {c : Config} {r r' : RxRegs} {b : Byte} {o : Decoded} (h : decodeStep c r b = .ok (r', o)) :
    decodeBytes c r [b] = .ok (exitToIdle r' o, [o]) := by
  simp [decodeBytes, h]

/-- The three header bytes of a frame with payload (spec/40_codec.md R88 to R90). -/
theorem decodeBytes_header (c : Config) {r : RxRegs} (a t n : Byte) (h : r.state = .idle) (hn : n ≠ 0#8)
    (hm : n.toNat ≤ c.maxPayload) :
    decodeBytes c r [a, t, n] =
      .ok ({ r with addr := a, mtype := t, len := n, rem := n, acc := xor8 [a, t, n], state := .awPayload },
        [.pending, .pending, .pending]) := by
  simp only [decodeBytes, decodeStep_idle c a h, exitToIdle]
  rw [decodeStep_awType c t rfl]
  simp only []
  rw [decodeStep_awLen_ok c rfl hn hm]
  simp [BitVec.xor_assoc]

/-- Payload bytes, at most as many as are still to come (spec/40_codec.md R91). -/
theorem decodeBytes_payload (c : Config) : ∀ (q : List Byte) (r : RxRegs), r.state = .awPayload →
    r.rem.toNat ≤ r.len.toNat → r.len.toNat ≤ c.maxPayload → q.length ≤ r.rem.toNat → 1 ≤ r.rem.toNat →
    ∃ r', decodeBytes c r q = .ok (r', List.replicate q.length .pending) ∧
      r'.addr = r.addr ∧ r'.mtype = r.mtype ∧ r'.len = r.len ∧ r'.acc = r.acc ^^^ xor8 q ∧
      (q.length = r.rem.toNat → r'.state = .awCksum) ∧
      (q.length < r.rem.toNat → r'.state = .awPayload) ∧
      (∀ j, j < r.len.toNat - r.rem.toNat → Memory.read r'.buf j = Memory.read r.buf j) ∧
      (∀ k : Nat, ∀ b, q[k]? = some b → Memory.read r'.buf (r.len.toNat - r.rem.toNat + k) = b) := by
  intro q
  induction q with
  | nil =>
    intro r h1 h2 h3 h4 h5
    exact ⟨r, by simp [decodeBytes], rfl, rfl, rfl, by simp, by simp; omega, by simp [h1], by simp, by simp⟩
  | cons b q ih =>
    intro r h1 h2 h3 h4 h5
    have hi := toNat_sub_byte h2
    have hd := decodeStep_awPayload c b h1 (by omega)
    simp only [List.length_cons] at h4
    by_cases hr : 1 < r.rem.toNat
    · simp only [if_pos hr] at hd
      have hrem : (r.rem - 1#8).toNat = r.rem.toNat - 1 := by
        rw [toNat_sub_byte (by simp; omega)]
        simp
      obtain ⟨r', g1, g2, g3, g4, g5, g6, g7, g8, g9⟩ := ih
        { r with
          buf := Memory.write r.buf (r.len - r.rem).toNat b
          acc := r.acc ^^^ b
          rem := r.rem - 1
          state := .awPayload } rfl
        (by simp [hrem]; omega) h3 (by simp [hrem]; omega) (by simp [hrem]; omega)
      simp only [BitVec.ofNat_eq_ofNat, hrem] at g6 g7 g8 g9
      refine ⟨r', ?_, g2, g3, g4, ?_, ?_, ?_, ?_, ?_⟩
      · simp only [decodeBytes, hd, exitToIdle, g1]
        simp [List.replicate_succ]
      · rw [g5]
        simp [BitVec.xor_assoc]
      · intro h
        simp at h
        exact g6 (by omega)
      · intro h
        simp at h
        exact g7 (by omega)
      · intro j hj
        rw [g8 j (by omega)]
        exact Memory.read_write_ne _ _ (by omega)
      · intro k c hk
        cases k with
        | zero =>
          simp at hk
          subst hk
          rw [Nat.add_zero, g8 _ (by omega), ← hi]
          exact Memory.read_write_same _ _ _
        | succ k =>
          simp at hk
          have := g9 k c hk
          rwa [show r.len.toNat - (r.rem.toNat - 1) + k = r.len.toNat - r.rem.toNat + (k + 1) by omega] at this
    · simp only [if_neg hr] at hd
      have hq : q = [] := List.length_eq_zero_iff.1 (by omega)
      subst hq
      refine ⟨_, decodeBytes_one hd, rfl, rfl, rfl, ?_, ?_, ?_, ?_, ?_⟩
      · simp [exitToIdle]
      · intro _
        rfl
      · simp
        omega
      · intro j hj
        exact Memory.read_write_ne _ _ (by omega)
      · intro k c hk
        cases k with
        | zero =>
          simp at hk
          subst hk
          rw [Nat.add_zero, ← hi]
          exact Memory.read_write_same _ _ _
        | succ k => simp at hk

/-- A frame with payload up to its checksum byte: the payload is in `rx_buf` and `rx_xor` is what the checksum must
be. -/
theorem decodeBytes_body (c : Config) {r : RxRegs} (a t n : Byte) (p : List Byte) (h : r.state = .idle)
    (hl : p.length = n.toNat) (hp : p ≠ []) (hm : n.toNat ≤ c.maxPayload) :
    ∃ r', decodeBytes c r ([a, t, n] ++ p) = .ok (r', List.replicate (p.length + 3) .pending) ∧
      r'.addr = a ∧ r'.mtype = t ∧ r'.len = n ∧ r'.acc = xor8 ([a, t, n] ++ p) ∧ r'.state = .awCksum ∧
      (∀ k : Nat, ∀ b, p[k]? = some b → Memory.read r'.buf k = b) := by
  have hpos : 0 < p.length := List.length_pos_iff.2 hp
  have hn : n ≠ 0#8 := by
    rintro rfl
    exact hp (by simpa using hl)
  have h1 := decodeBytes_header c a t n h hn hm
  obtain ⟨r', g1, g2, g3, g4, g5, g6, g7, g8, g9⟩ := decodeBytes_payload c p
    { r with addr := a, mtype := t, len := n, rem := n, acc := xor8 [a, t, n], state := .awPayload } rfl
    (by simp) (by simpa using hm) (by simp; omega) (by simp; omega)
  refine ⟨r', ?_, g2, g3, g4, ?_, g6 (by simpa using hl), ?_⟩
  · rw [decodeBytes_append h1 g1]
    simp [List.replicate_succ]
  · rw [g5, xor8_append]
  · intro k b hk
    simpa using g9 k b hk

/-- The reference encoder on a payload with at least one byte (spec/40_codec.md R99). -/
theorem encodeM2S_of_ne (a t : Byte) {p : List Byte} (hp : p ≠ []) :
    encodeM2S a t p =
      ([a, t, BitVec.ofNat 8 p.length] ++ p) ++ [xor8 ([a, t, BitVec.ofNat 8 p.length] ++ p)] := by
  cases p with
  | nil => exact absurd rfl hp
  | cons b bs => rfl

/-- Events in two pieces run one after the other. -/
theorem execAll_append : ∀ (xs ys : List Instr) (s t : State), execAll xs s = .next t →
    execAll (xs ++ ys) s = execAll ys t := by
  intro xs
  induction xs with
  | nil =>
    intro ys s t h
    simp only [execAll] at h
    cases h
    rfl
  | cons x xs ih =>
    intro ys s t h
    simp only [execAll, List.cons_append] at h ⊢
    split at h
    · rename_i u hu
      exact ih ys u t h
    · cases h
    · cases h

end Sys2Proof.Machine
end

