-- ==== Sys2Proof/Laws/Decode.lean ====
section
/-! SUPPORT. The fields of an event word, the argument words of a TX_BEGIN item, and the decoder on an event's header:
what later proofs about decoding cite. -/

namespace Sys2Proof

theorem toNat_eventWord (k : BitVec 4) (b : Byte) : (eventWord k b).toNat = k.toNat * 4096 + b.toNat := by
  have := k.isLt
  have := b.isLt
  simp only [eventWord, BitVec.toNat_ofNat]
  omega

theorem toNat_kindOf (w : EventWord) : (kindOf w).toNat = w.toNat / 4096 % 16 := by
  simp [kindOf, Nat.shiftRight_eq_div_pow]

theorem toNat_zOf (w : EventWord) : (zOf w).toNat = w.toNat / 256 % 16 := by
  simp [zOf, Nat.shiftRight_eq_div_pow]

theorem toNat_opOf (w : EventWord) : (opOf w).toNat = w.toNat % 256 := by
  simp [opOf]

@[simp] theorem kindOf_eventWord (k : BitVec 4) (b : Byte) : kindOf (eventWord k b) = k := by
  have := b.isLt
  apply BitVec.eq_of_toNat_eq
  rw [toNat_kindOf, toNat_eventWord]
  omega

@[simp] theorem zOf_eventWord (k : BitVec 4) (b : Byte) : zOf (eventWord k b) = 0#4 := by
  have := b.isLt
  apply BitVec.eq_of_toNat_eq
  rw [toNat_zOf, toNat_eventWord, BitVec.toNat_ofNat]
  omega

@[simp] theorem opOf_eventWord (k : BitVec 4) (b : Byte) : opOf (eventWord k b) = b := by
  have := b.isLt
  apply BitVec.eq_of_toNat_eq
  rw [toNat_opOf, toNat_eventWord]
  omega

/-- A word whose `z` is 0 is its kind and its operand byte. -/
theorem eq_eventWord (w : EventWord) (h : zOf w = 0#4) : w = eventWord (kindOf w) (opOf w) := by
  have hw := w.isLt
  have hz : (zOf w).toNat = 0 := by rw [h]; rfl
  rw [toNat_zOf] at hz
  apply BitVec.eq_of_toNat_eq
  rw [toNat_eventWord, toNat_kindOf, toNat_opOf]
  omega

@[simp] theorem argByte_eventWord (b : Byte) : argByte (eventWord 0x4#4 b) = some b := by
  simp [argByte]

theorem argByte_some {w : EventWord} {b : Byte} (h : argByte w = some b) : w = eventWord 0x4#4 b := by
  unfold argByte at h
  split at h
  · rename_i hw
    cases h
    have := eq_eventWord w hw.2
    rwa [hw.1] at this
  · cases h

/-- Argument words are taken back as the bytes they carry. -/
theorem takeArgs_map (bs : List Byte) (rest : List EventWord) :
    takeArgs bs.length (bs.map (eventWord 0x4#4) ++ rest) = some (bs, rest) := by
  induction bs with
  | nil => rfl
  | cons b bs ih => simp [takeArgs, ih]

/-- What `takeArgs` answers: as many argument words as were asked for, and the words after them. -/
theorem takeArgs_some : ∀ {n : Nat} {ws rest : List EventWord} {bs : List Byte},
    takeArgs n ws = some (bs, rest) → bs.length = n ∧ ws = bs.map (eventWord 0x4#4) ++ rest := by
  intro n
  induction n with
  | zero =>
    intro ws rest bs h
    simp only [takeArgs, Option.some.injEq, Prod.mk.injEq] at h
    obtain ⟨rfl, rfl⟩ := h
    simp
  | succ n ih =>
    intro ws rest bs h
    cases ws with
    | nil => simp [takeArgs] at h
    | cons w ws =>
      simp only [takeArgs] at h
      split at h
      · cases h
      · rename_i b hb
        split at h
        · cases h
        · rename_i bs' rest' ht
          simp only [Option.some.injEq, Prod.mk.injEq] at h
          obtain ⟨rfl, rfl⟩ := h
          obtain ⟨hl, rfl⟩ := ih ht
          simp [hl, argByte_some hb]

/-- The decoder on a header word whose kind names an event and whose `z` is 0. -/
theorem decode_eventWord (k : BitVec 4) (b : Byte) (ws : List EventWord) (hk : kindIsEvent k.toNat = true) :
    decode (eventWord k b :: ws) = decodeKind k.toNat b ws := by
  simp [decode, hk]

theorem decodeSelector_code (sel : StatSel) : decodeSelector (selectorCode sel) = some sel := by
  cases sel <;> rfl

theorem decodeSelector_some {op : Byte} {sel : StatSel} (h : decodeSelector op = some sel) : op = selectorCode sel := by
  unfold decodeSelector at h
  split at h <;> simp only [Option.some.injEq, reduceCtorEq] at h
  all_goals
    subst h
    rename_i hop
    exact BitVec.eq_of_toNat_eq hop

end Sys2Proof
end

