-- ==== Sys2Proof/Laws/PerInstr.lean ====
section
/-! SUPPORT. A statement for every event as syntax: its first word is the one spec/opcode_table.json matches. -/

namespace Sys2Proof.Laws.HeaderWord

/-- The `match` of a row of spec/30_encoding.md R77. -/
def rowMatch : Instr → Nat
  | .rxb _ => 0x1000
  | .tick => 0x2000
  | .txb _ => 0x3000
  | .arg _ => 0x4000
  | .txs => 0x5000
  | .lout => 0x6000
  | .txd => 0x7000
  | .pop => 0x8000
  | .stat _ => 0x9000
  | .rst => 0xA000

/-- The `mask` of a row of spec/30_encoding.md R77: 0xFF00 where the event takes an operand. -/
def rowMask : Instr → Nat
  | .rxb _ => 0xFF00
  | .tick => 0xFFFF
  | .txb _ => 0xFF00
  | .arg _ => 0xFF00
  | .txs => 0xFFFF
  | .lout => 0xFFFF
  | .txd => 0xFFFF
  | .pop => 0xFFFF
  | .stat _ => 0xFF00
  | .rst => 0xFFFF

/-- An event's first word, under its row's mask, is its row's match. -/
def Statement (i : Instr) : Prop :=
  ∃ w rest, encode i = w :: rest ∧ w &&& BitVec.ofNat 16 (rowMask i) = BitVec.ofNat 16 (rowMatch i)

/-- A word with a kind and any operand byte, under the mask 0xFF00. -/
theorem eventWord_mask (k : BitVec 4) (b : Byte) :
    eventWord k b &&& 0xFF00#16 = BitVec.ofNat 16 (k.toNat * 0x1000) := by
  revert k b
  decide

theorem rxb (b : Byte) : Statement (.rxb b) := ⟨_, _, rfl, eventWord_mask 0x1#4 b⟩
theorem tick : Statement .tick := ⟨_, _, rfl, rfl⟩
theorem txb (r : Response) : Statement (.txb r) := by
  cases r with
  | empty => exact ⟨_, _, rfl, rfl⟩
  | data mtype len payload => exact ⟨_, _, rfl, eventWord_mask 0x3#4 len⟩
theorem arg (b : Byte) : Statement (.arg b) := ⟨_, _, rfl, eventWord_mask 0x4#4 b⟩
theorem txs : Statement .txs := ⟨_, _, rfl, rfl⟩
theorem lout : Statement .lout := ⟨_, _, rfl, rfl⟩
theorem txd : Statement .txd := ⟨_, _, rfl, rfl⟩
theorem pop : Statement .pop := ⟨_, _, rfl, rfl⟩
theorem stat (sel : StatSel) : Statement (.stat sel) := ⟨_, _, rfl, eventWord_mask 0x9#4 (selectorCode sel)⟩
theorem rst : Statement .rst := ⟨_, _, rfl, rfl⟩

end Sys2Proof.Laws.HeaderWord
end

