-- ==== Sys2Proof/Tests/Slice0.lean ====
section
/-! SUPPORT. The author's tests: ill-formed terms refused, event words of spec/30_encoding.md decoded, single steps of
spec/95_test_vectors.md (parameter set P0), and for each obligation with hypotheses a state and operands that meet
them. -/

namespace Sys2Proof.Tests

open Sys2Proof.Machine

/-! ### Reading a result -/

/-- A view of the next state; none where the step stops. -/
def view {α : Type} (f : State → α) : Result → Option α
  | .next s => some (f s)
  | .fault _ => none
  | .refused _ => none

/-- The refusal of a step; none where there is none. -/
def refusal : Result → Option Refusal
  | .next _ => none
  | .fault _ => none
  | .refused r => some r

/-- The outcome of a decode step; none where it faults. -/
def outcome (x : Except Fault (RxRegs × Decoded)) : Option Decoded :=
  match x with
  | .ok (_, o) => some o
  | .error _ => none

/-- The event a list of words begins with; none where the decoder refuses. -/
def event (words : List EventWord) : Option Instr :=
  match decode words with
  | .ok (i, _) => some i
  | .error _ => none

/-- Why the decoder refuses. -/
def why (words : List EventWord) : Option DecodeError :=
  match decode words with
  | .ok _ => none
  | .error e => some e

/-- The counters in STAT selector order, as spec/95_test_vectors.md writes them. -/
def cnt (s : State) : List Counter :=
  [s.cnt.frames, s.cnt.cksumErr, s.cnt.desync, s.cnt.lenErr, s.cnt.fault, s.cnt.qovf]

/-! ### States of the vectors -/

/-- S0 of spec/95_test_vectors.md. -/
def s0 : State := State.reset

/-- S0 under other parameters. -/
def s0With (c : Config) : State := State.resetWith c

/-- EX1 after 05: AW_TYPE. -/
def awaitingType : State := { s0 with rx := ⟨.awType, 0x05, 0, 0, 0, 0x05, []⟩, snt := ⟨true, 3⟩ }

/-- EX1 after 05 01: AW_LEN. -/
def awaitingLength : State := { s0 with rx := ⟨.awLen, 0x05, 0x01, 0, 0, 0x04, []⟩, snt := ⟨true, 3⟩ }

/-- EX1 after 05 01 02 AA: AW_PAYLOAD with one byte to come. -/
def awaitingPayload : State :=
  { s0 with rx := ⟨.awPayload, 0x05, 0x01, 2, 1, 0xAC, [(0, 0xAA)]⟩, snt := ⟨true, 3⟩ }

/-- EX1 after 05 01 02 AA BB: AW_CKSUM. -/
def awaitingCksum : State :=
  { s0 with rx := ⟨.awCksum, 0x05, 0x01, 2, 0, 0x17, [(0, 0xAA), (1, 0xBB)]⟩, snt := ⟨true, 3⟩ }

/-- The poll frame of slave 5 with messageType 2. -/
def poll : Frame := ⟨0x05, 0x02, 0, []⟩

/-- awaitingLength of the last of five polls: the queue is full (RX-15). -/
def queueFull : State :=
  { s0 with
    rx := ⟨.awLen, 0x05, 0x02, 0, 0, 0x07, []⟩
    snt := ⟨true, 3⟩
    cnt := { Stats.zero with frames := 4 }
    rq := [poll, poll, poll, poll] }

/-- The response of TX-1. -/
def reply : Response := .data 0x01 2 [0xAA, 0xBB]

/-- TX-1 after its txbegin. -/
def sending : State :=
  { s0 with
    rxEn := false
    dir := .transmit
    tx := ⟨true, 0x01, 2, [(0, 0xAA), (1, 0xBB)], 5, 2, true⟩
    utxFifo := [0x02, 0x01] }

/-- TX-1 after its first lineout: the FIFO has space. -/
def sendingSpace : State := { sending with utxFifo := [0x01], busOut := [0x02] }

/-- TX-1 before its txdone. -/
def drained : State :=
  { sending with tx := { sending.tx with idx := 5 }, utxFifo := [], busOut := [0x02, 0x01, 0xAA, 0xBB, 0x12] }

/-- A disabled engine at reset (DIS-1). -/
def disabled : State := s0With { Config.p0 with cfgEnable := false }

/-! ### Ill-formed terms (spec/00_scope.md R16) -/

theorem test_wf_refuses_length_zero : (Instr.txb (.data 0x01 0 [])).wf = false := by decide
theorem test_wf_refuses_missing_payload : (Instr.txb (.data 0x01 2 [0xAA])).wf = false := by decide
theorem test_wf_refuses_extra_payload : (Instr.txb (.data 0x01 1 [0xAA, 0xBB])).wf = false := by decide
theorem test_wf_accepts : (Instr.txb reply).wf = true ∧ (Instr.txb .empty).wf = true := by decide

/-! ### Event words, bit by bit from spec/30_encoding.md R76, R77: kind w[15:12], z w[11:8], op w[7:0] -/

theorem test_decode_rxb : event [0b0001000010101010] = some (.rxb 0xAA) := by decide
theorem test_decode_tick : event [0b0010000000000000] = some .tick := by decide
theorem test_decode_txb :
    event [0b0011000000000000] = some (.txb .empty) ∧
    event [0b0011000000000010, 0b0100000000000001, 0b0100000010101010, 0b0100000010111011] = some (.txb reply) := by
  decide
theorem test_decode_arg : event [0b0100000000000001] = some (.arg 0x01) := by decide
theorem test_decode_txs : event [0b0101000000000000] = some .txs := by decide
theorem test_decode_lout : event [0b0110000000000000] = some .lout := by decide
theorem test_decode_txd : event [0b0111000000000000] = some .txd := by decide
theorem test_decode_pop : event [0b1000000000000000] = some .pop := by decide
theorem test_decode_stat : event [0b1001000000000001] = some (.stat .cksumErr) ∧
    event [0b1001000000000101] = some (.stat .qovf) := by decide
theorem test_decode_rst : event [0b1010000000000000] = some .rst := by decide

/-- ENC-6 to ENC-10, HOST-5. -/
theorem test_decode_refuses :
    why [0x0000] = some .reservedKind ∧ why [0xB000] = some .reservedKind ∧ why [0xF123] = some .reservedKind ∧
    why [0x1100] = some .reservedZ ∧ why [0x2001] = some .reservedOp ∧ why [0x8001] = some .reservedOp ∧
    why [0x9006] = some .reservedSelector ∧ why [0x3002, 0x4001, 0x40AA, 0x2000] = some .truncatedItem ∧
    why [0x3001, 0x4001] = some .truncatedItem ∧ why [] = some .endOfTrace := by decide

/-- The opcode table's numbering: a later word above the first. -/
theorem test_decode_table_word :
    decodeTableWord 16 0x10AA = some (.rxb 0xAA) ∧ decodeTableWord 16 0x3000 = some (.txb .empty) ∧
    decodeTableWord 64 0x40BB40AA40013002 = some (.txb reply) ∧ decodeTableWord 16 0xB000 = none := by decide

/-- The first step after reset runs the placed word. -/
theorem test_fetch_word_runs :
    view (fun s => s.rx.state) (step (State.reset.withFetchWord 16 0x1005)) = some .awType ∧
    refusal (step State.reset) = some (.noEvent .endOfTrace) := by decide

/-! ### Trace text (spec/30_encoding.md R82, R83; the words of P2 and P3 of spec/95_test_vectors.md) -/

theorem test_assemble_macros :
    assembleText "mbcast 3, [0x7F] ; broadcast\nmbad 5, 1, [0xAA, 0xBB], 0x18\nmframe 5, 1, [0xAA, 0xBB]".toList =
      some [0x1000, 0x1003, 0x1001, 0x107F, 0x107D, 0x1005, 0x1001, 0x1002, 0x10AA, 0x10BB, 0x1018,
        0x1005, 0x1001, 0x1002, 0x10AA, 0x10BB, 0x1017] := by decide

theorem test_assemble_lines :
    assembleText "ticks 2\nmpoll 5, 2\n\ntxbegin 1, [0xAA, 0xBB]\ntxbegin empty\nlineout\ntxspace\ntxdone".toList =
      some [0x2000, 0x2000, 0x1005, 0x1002, 0x1000, 0x3002, 0x4001, 0x40AA, 0x40BB, 0x3000, 0x6000, 0x5000,
        0x7000] ∧
    assembleText "pop\nstat 2\nreset\ntick\nrx 0x55".toList = some [0x8000, 0x9002, 0xA000, 0x2000, 0x1055] ∧
    assembleText "txbegin 1, []".toList = none := by decide

/-! ### Codec (CODEC-1 to CODEC-15) -/

theorem test_xor8 : xor8 [0x05, 0x01, 0x02, 0xAA, 0xBB] = 0x17 ∧ xor8 [] = 0x00 := by decide

theorem test_encodeS2M :
    encodeS2M Config.p0 reply = [0x02, 0x01, 0xAA, 0xBB, 0x12] ∧
    encodeS2M Config.p0 (.data 0x10 1 [0x01]) = [0x01, 0x10, 0x01, 0x10] ∧
    encodeS2M { Config.p0 with txCksumPolicy := .fixed 0x5A } reply = [0x02, 0x01, 0xAA, 0xBB, 0x5A] ∧
    encodeS2M Config.p0 .empty = [0x00] := by decide

theorem test_encodeM2S :
    encodeM2S 0x05 0x02 [] = [0x05, 0x02, 0x00] ∧ encodeM2S 0x00 0x03 [0x7F] = [0x00, 0x03, 0x01, 0x7F, 0x7D] ∧
    encodeM2S 0x05 0x01 [0x05] = [0x05, 0x01, 0x01, 0x05, 0x00] := by decide

/-! ### Single steps -/

/-- EX1, its rows before the last, and RX-9. -/
theorem test_rxb_rows :
    view (fun s => (s.rx.state, s.rx.addr, s.rx.acc)) (exec (.rxb 0x05) s0) = some (.awType, 0x05, 0x05) ∧
    view (fun s => (s.rx.state, s.rx.acc)) (exec (.rxb 0x01) awaitingType) = some (.awLen, 0x04) ∧
    view (fun s => (s.rx.acc, s.rx.rem)) (exec (.rxb 0x02) awaitingLength) = some (0x06, 2) ∧
    view (fun s => (s.rx.state, s.rx.acc, s.rx.buf)) (exec (.rxb 0xBB) awaitingPayload) =
      some (.awCksum, 0x17, [(0, 0xAA), (1, 0xBB)]) ∧
    view (fun s => (s.rx.state, cnt s)) (exec (.rxb 0xFB) awaitingLength) = some (.idle, [0, 0, 0, 1, 0, 0]) := by
  decide

/-- EX1's last row, RX-7, RX-15, RX-16. -/
theorem test_rxb_ends :
    view (fun s => (s.rx.state, s.rq, cnt s, s.snt.armed)) (exec (.rxb 0x17) awaitingCksum) =
      some (.idle, [⟨0x05, 0x01, 2, [0xAA, 0xBB]⟩], [1, 0, 0, 0, 0, 0], false) ∧
    view (fun s => (s.rx.state, s.rq, cnt s)) (exec (.rxb 0x18) awaitingCksum) =
      some (.idle, [], [0, 1, 0, 0, 0, 0]) ∧
    view (fun s => (s.rq.length, cnt s)) (exec (.rxb 0x00) queueFull) = some (4, [5, 0, 0, 0, 0, 1]) ∧
    view (fun s => s.rx.state) (exec (.rxb 0x05) sending) = some .idle := by decide

/-- SNT-4 and SNT-2. -/
theorem test_tick :
    view (fun s => (s.rx.state, s.snt)) (exec .tick { awaitingLength with snt := ⟨true, 2⟩ }) =
      some (.awLen, ⟨true, 1⟩) ∧
    view (fun s => (s.rx.state, s.snt.armed, cnt s)) (exec .tick { awaitingLength with snt := ⟨true, 1⟩ }) =
      some (.idle, false, [0, 0, 1, 0, 0, 0]) ∧
    view (fun s => s) (exec .tick s0) = some s0 := by decide

/-- TX-1's txbegin. -/
theorem test_txb_accepted :
    view (fun s => (s.utxFifo, s.tx.idx, s.tx.total, s.tx.active, s.dir, s.rxEn)) (exec (.txb reply) s0) =
      some ([0x02, 0x01], 2, 5, true, .transmit, false) ∧
    view (fun s => s.outputs) (exec (.txb reply) s0) = some [.txbStatus .accepted] := by decide

/-- TX-5, TX-6, DIS-1. -/
theorem test_txb_rejected :
    view (fun s => (s.tx, s.utxFifo, cnt s, s.outputs)) (exec (.txb (.data 0x01 1 [0x01])) sending) =
      some (sending.tx, sending.utxFifo, [0, 0, 0, 0, 1, 0], [.txbStatus .rejected]) ∧
    view (fun s => (s.tx.active, cnt s))
      (exec (.txb (.data 0x01 5 [1, 2, 3, 4, 5])) (s0With { Config.p0 with maxPayload := 4 })) =
      some (false, [0, 0, 0, 0, 1, 0]) ∧
    view (fun s => (cnt s, s.outputs)) (exec (.txb .empty) disabled) =
      some ([0, 0, 0, 0, 0, 0], [.txbStatus .rejected]) := by decide

/-- ENC-9: an ARG word outside an item. -/
theorem test_arg_refused : refusal (exec (.arg 0x01) s0) = some .strayArg := by decide

/-- TX-1's txspace and TX-9. -/
theorem test_txs :
    view (fun s => (s.utxFifo, s.tx.idx)) (exec .txs sendingSpace) = some ([0x01, 0xAA], 3) ∧
    refusal (exec .txs sending) = some .txSpaceNotEnabled ∧ refusal (exec .txs s0) = some .txSpaceNotEnabled := by
  decide

/-- TX-1's lineout, its echo discarded, and TX-9. -/
theorem test_lout :
    view (fun s => (s.utxFifo, s.busOut, s.rx.state)) (exec .lout sending) = some ([0x01], [0x02], .idle) ∧
    refusal (exec .lout s0) = some .lineOutNotEnabled := by decide

/-- TX-1's txdone and TX-9. -/
theorem test_txd :
    view (fun s => (s.tx.active, s.dir, s.rxEn, s.tx.echoPending)) (exec .txd drained) =
      some (false, .receive, true, false) ∧
    refusal (exec .txd sending) = some .txDoneNotEnabled ∧ refusal (exec .txd s0) = some .txDoneNotEnabled := by
  decide

/-- HOST-1, HOST-2. -/
theorem test_pop :
    view (fun s => (s.rq.length, s.outputs)) (exec .pop queueFull) = some (3, [.popResult (some poll)]) ∧
    view (fun s => s.outputs) (exec .pop s0) = some [.popResult none] := by decide

/-- HOST-4 and the selectors' counters. -/
theorem test_stat :
    view (fun s => s.outputs) (exec (.stat .frames) queueFull) = some [.statValue 4] ∧
    view (fun s => s.outputs) (exec (.stat .qovf) { s0 with cnt := ⟨1, 2, 3, 4, 5, 6⟩ }) = some [.statValue 6] := by
  decide

/-- RST-1: `bus_out` stays. -/
theorem test_rst :
    view (fun s => (s.dir, s.tx.active, s.utxFifo, s.busOut)) (exec .rst sendingSpace) =
      some (.receive, false, [], [0x02]) ∧
    view (fun s => (s.rx.state, s.rxEn)) (exec .rst sendingSpace) = some (.idle, true) ∧
    view (fun s => (s.rq, cnt s)) (exec .rst queueFull) = some ([], [0, 0, 0, 0, 0, 0]) := by decide

/-- R167: every byte of both buffers is unspecified after RESET, a free value in each. -/
theorem test_rst_buffers (c : Config) (k i : Nat) (h : i < c.maxPayload) :
    (resetRx c k).buf.read i = Config.freeByte (k + 7 + i) ∧
    (resetTx c k).buf.read i = Config.freeByte (k + 7 + c.maxPayload + i) := ⟨freeBuffer_read h, freeBuffer_read h⟩

/-- A frame whose payload bytes are 0x00 (checksum 05 ^ 01 ^ 02) is delivered with them, from a buffer that lists
none. -/
theorem test_rxb_zero_payload :
    view (fun s => (s.rx.buf, s.rx.acc)) (exec (.rxb 0x00) { awaitingPayload with
      rx := { awaitingPayload.rx with acc := 0x06, buf := [] } }) = some ([], 0x06) ∧
    view (fun s => s.rq) (exec (.rxb 0x06) { awaitingCksum with
      rx := { awaitingCksum.rx with acc := 0x06, buf := [] } }) = some [⟨0x05, 0x01, 2, [0x00, 0x00]⟩] := by decide

/-- Writing 0x00 over a listed byte takes it off the list. -/
theorem test_write_zero : Memory.write [(0, 0xAA), (1, 0xBB)] 0 0x00 = [(1, 0xBB)] ∧
    Memory.wf [(0, 0x00)] = false ∧ Memory.wf [(1, 0xAA), (0, 0xBB)] = false := by decide

/-- RX-17: a counter wraps. -/
theorem test_counter_wraps :
    view (fun s => s.cnt.cksumErr)
      (exec (.rxb 0x00) { awaitingCksum with cnt := { Stats.zero with cksumErr := 0xFFFFFFFF } }) = some 0 := by
  decide


/-! ### Witnesses: states and operands that meet the hypotheses of the obligations -/

/-- n zero bytes. -/
def zeros (n : Nat) : List Byte := List.replicate n 0x00

theorem test_zeros_length (n : Nat) : (zeros n).length = n := List.length_replicate

theorem test_wf_of_length {n : Byte} (h1 : 1 ≤ n.toNat) : (Response.data 0x01 n (zeros n.toNat)).wf = true := by
  simp only [Response.wf, test_zeros_length, decide_eq_true h1, decide_true, Bool.and_self]

/-- The longest response, n = 255. -/
def longest : Response := .data 0x01 255 (zeros 255)

/-- `MAX_PAYLOAD` = 1 (RX-12, RX-13). -/
def tight : Config := { Config.p0 with maxPayload := 1 }

/-- FROM_FIRST_BYTE (SNT-6). -/
def firstByte : Config := { Config.p0 with sntMode := .fromFirstByte }

theorem test_inv_idle : Inv s0 :=
  ⟨by decide, ⟨by decide, by decide, by decide, by decide, by decide, fun h => absurd h (by decide), by decide, by decide,
    by decide, by decide, by decide, by decide, by decide⟩, by decide, by decide, by decide, by decide, by decide, by decide⟩

theorem test_inv_receiving : Inv awaitingPayload :=
  ⟨by decide, ⟨by decide, by decide, by decide, by decide, by decide, fun h => absurd h (by decide), by decide, by decide,
    by decide, by decide, by decide, by decide, by decide⟩, by decide, by decide, by decide, by decide, by decide, by decide⟩

theorem test_inv_awaitingCksum : Inv awaitingCksum :=
  ⟨by decide, ⟨by decide, by decide, by decide, by decide, by decide, fun h => absurd h (by decide), by decide, by decide,
    by decide, by decide, by decide, by decide, by decide⟩, by decide, by decide, by decide, by decide, by decide, by decide⟩

/-- The queue at its bound. -/
theorem test_inv_queueFull : Inv queueFull :=
  ⟨by decide, ⟨by decide, by decide, by decide, by decide, by decide, fun h => absurd h (by decide), by decide, by decide,
    by decide, by decide, by decide, by decide, by decide⟩, by decide, by decide, by decide, by decide, by decide, by decide⟩

/-- A job in flight with the FIFO at its bound. -/
theorem test_inv_sending : Inv sending := by
  refine ⟨by decide, ⟨by decide, by decide, by decide, by decide, by decide, ?_, by decide, by decide,
    by decide, by decide, by decide, by decide, by decide⟩, by decide, by decide, by decide, by decide, by decide, by decide⟩
  intro _ k b hb
  match k, hb with
  | 0, hb =>
    cases hb
    rfl
  | 1, hb =>
    cases hb
    rfl

/-- A job whose last byte has left: TX_DONE is enabled. -/
theorem test_inv_drained : Inv drained := by
  refine ⟨by decide, ⟨by decide, by decide, by decide, by decide, by decide, ?_, by decide, by decide,
    by decide, by decide, by decide, by decide, by decide⟩, by decide, by decide, by decide, by decide, by decide, by decide⟩
  intro _ k b hb
  simp [drained] at hb

theorem test_holds_reply : HoldsResponse sending reply := by
  refine ⟨by decide, by decide, rfl, rfl, rfl, ?_⟩
  intro k b hb
  match k, hb with
  | 0, hb =>
    cases hb
    rfl
  | 1, hb =>
    cases hb
    rfl

theorem test_witness_DecodeOfEncodeIsTheEvent :
    (Instr.txb reply).wf = true ∧ (Instr.txb longest).wf = true ∧ (Instr.txb .empty).wf = true :=
  ⟨by decide, test_wf_of_length (n := 255) (by decide), by decide⟩

theorem test_witness_DecodedWordsAreTheEncoding :
    decode [0x3002, 0x4001, 0x40AA, 0x40BB, 0x2000] = .ok (.txb reply, [0x2000]) := rfl

theorem test_witness_TxBeginItemTakesItsArguments :
    (1#8 ≠ 0#8 ∧ [0x07#8].length = (1#8).toNat) ∧ (reply.wf = true ∧ configOk s0.cfg = true) ∧
    { s0 with trace := encode (.txb reply) ++ [0x6000] }.trace = encode (.txb reply) ++ [0x6000] ∧
    { s0 with trace := [0x40AA] }.trace = eventWord 0x4#4 0xAA :: [] ∧
    (Response.data 0x01 251 (zeros 251)).wf = true ∧
    s0.cfg.maxPayload < (responseLen (.data 0x01 251 (zeros 251))).toNat :=
  ⟨by decide, by decide, rfl, rfl, test_wf_of_length (n := 251) (by decide), by decide⟩

theorem test_witness_ReservedWordsHaveNoStep :
    kindOf 0x0000 = 0x0#4 ∧ 0xB ≤ (kindOf 0xB000).toNat ∧ zOf 0x1100 ≠ 0#4 ∧
    (opOf 0x2001 ≠ 0#8 ∧ kindOf 0x2001 ∈ [0x2#4, 0x5#4, 0x6#4, 0x7#4, 0x8#4, 0xA#4]) ∧
    (kindOf 0x9006 = 0x9#4 ∧ 5 < (opOf 0x9006).toNat) ∧ kindOf 0x4001 = 0x4#4 ∧
    enabled s0 .txs = false ∧ enabled s0 .lout = false ∧ enabled sending .txd = false := by decide

theorem test_witness_cut_short_item :
    0x3001 = eventWord 0x3#4 1 ∧ (1#8 ≠ 0#8) ∧
    ¬ ∃ (args : List Byte) (tail : List EventWord), args.length = (1#8).toNat + 1 ∧
      [(0x4001 : EventWord)] = args.map (eventWord 0x4#4) ++ tail := by
  refine ⟨by decide, by decide, ?_⟩
  rintro ⟨args, tail, hl, he⟩
  have := congrArg List.length he
  simp only [List.length_cons, List.length_nil, List.length_append, List.length_map, hl] at this
  simp at this
  omega

theorem test_witness_StepRunsTheDecodedEvent :
    configOk s0.cfg = true ∧ decode [0x1005, 0x2000] = .ok (.rxb 0x05, [0x2000]) ∧
    decode [0xB000] = .error .reservedKind := ⟨by decide, rfl, rfl⟩

theorem test_witness_ConfigurationIsCheckedAndFixed :
    { Config.p0 with myAddr := 0 }.myAddr = 0#8 ∧ 126 < { Config.p0 with myAddr := 127 }.myAddr.toNat ∧
    255 < { Config.p0 with maxPayload := 256 }.maxPayload ∧ (∃ t, exec .tick s0 = .next t) ∧
    ∃ t, step { s0 with trace := [0x2000] } = .next t :=
  ⟨by decide, by decide, by decide, ⟨_, rfl⟩, ⟨_, rfl⟩⟩

theorem test_witness_ReceiveStateCodes :
    awaitingCksum.rx.state ≠ .reserved ∧ ∃ t, exec (.rxb 0x17) awaitingCksum = .next t := ⟨by decide, ⟨_, rfl⟩⟩

theorem test_witness_MframeIsTheReferenceEncoder :
    [0x7F#8] ≠ [] ∧ [0x7F#8].length ≤ 255 ∧ (zeros 255).length ≤ 255 :=
  ⟨by decide, by decide, Nat.le_of_eq (test_zeros_length 255)⟩

theorem test_witness_XorChecksumLaws : [0x05#8, 0x01#8].Perm [0x01#8, 0x05#8] := by decide

theorem test_witness_SlaveFrameEncoding :
    (2#8 ≠ 0#8) ∧ Config.p0.txCksumPolicy = .xor ∧
    { Config.p0 with txCksumPolicy := .fixed 0x5A }.txCksumPolicy = .fixed 0x5A := by decide

theorem test_witness_TxBytesAreTheEncodedResponse :
    HoldsResponse sending reply ∧ (encodeS2M sending.cfg reply)[4]? = some 0x12 := ⟨test_holds_reply, by decide⟩

theorem test_witness_IdleByteIsTheAddress :
    s0.cfg.cfgEnable = true ∧ s0.rxEn = true ∧ s0.rx.state = .idle := by decide

theorem test_witness_TypeByteIsStored :
    awaitingType.cfg.cfgEnable = true ∧ awaitingType.rxEn = true ∧ awaitingType.rx.state = .awType := by decide

/-- `MAX_PAYLOAD` = 250: 0, 251 and 250. -/
theorem test_witness_LengthByteCases :
    (awaitingLength.cfg.cfgEnable = true ∧ awaitingLength.rxEn = true ∧ awaitingLength.rx.state = .awLen) ∧
    (251#8 ≠ 0#8 ∧ awaitingLength.cfg.maxPayload < (251#8).toNat) ∧
    (250#8 ≠ 0#8 ∧ (250#8).toNat ≤ awaitingLength.cfg.maxPayload) := by decide

/-- The last payload byte and one that is not the last. -/
theorem test_witness_PayloadByteIsBuffered :
    (awaitingPayload.cfg.cfgEnable = true ∧ awaitingPayload.rxEn = true ∧ awaitingPayload.rx.state = .awPayload ∧
      1 ≤ awaitingPayload.rx.rem.toNat ∧ awaitingPayload.rx.rem.toNat ≤ awaitingPayload.rx.len.toNat ∧
      awaitingPayload.rx.len.toNat ≤ awaitingPayload.cfg.maxPayload) ∧
    ¬ 1 < awaitingPayload.rx.rem.toNat ∧ 1 < { awaitingPayload.rx with rem := 2, buf := [] }.rem.toNat := by decide

theorem test_witness_ChecksumByteCases :
    awaitingCksum.cfg.cfgEnable = true ∧ awaitingCksum.rxEn = true ∧ awaitingCksum.rx.state = .awCksum ∧
    [0xAA#8, 0xBB#8].length = awaitingCksum.rx.len.toNat ∧ [0xAA#8, 0xBB#8].length ≤ awaitingCksum.cfg.maxPayload ∧
    (∀ (k : Nat) (c : Byte), [0xAA#8, 0xBB#8][k]? = some c → Memory.read awaitingCksum.rx.buf k = c) ∧
    0x17#8 = awaitingCksum.rx.acc ∧ 0x18#8 ≠ awaitingCksum.rx.acc := by
  refine ⟨by decide, by decide, by decide, by decide, by decide, ?_, by decide, by decide⟩
  intro k c hc
  match k, hc with
  | 0, hc =>
    cases hc
    rfl
  | 1, hc =>
    cases hc
    rfl

theorem test_witness_ReferenceFramesDecodeToThemselves :
    configOk Config.p0 = true ∧ s0.rx.state = .idle ∧ (zeros 250).length ≤ Config.p0.maxPayload :=
  ⟨by decide, by decide, Nat.le_of_eq (test_zeros_length 250)⟩

/-- The address, the last payload byte and the checksum of the frame of EX1. -/
theorem test_witness_FlippedBitIsAChecksumError :
    configOk Config.p0 = true ∧ s0.rx.state = .idle ∧ [0xAA#8, 0xBB#8] ≠ [] ∧
    (encodeM2S 0x05 0x01 [0xAA, 0xBB])[0]? = some 0x05 ∧ (encodeM2S 0x05 0x01 [0xAA, 0xBB])[4]? = some 0xBB ∧
    (encodeM2S 0x05 0x01 [0xAA, 0xBB])[5]? = some 0x17 := by decide

/-- The length 2 changed to 0, 251, 1 and 3 (CODEC-11 to CODEC-13). -/
theorem test_witness_FlippedLengthByteReframes :
    (0#8).toNat ≠ [0xAA#8, 0xBB#8].length ∧ Config.p0.maxPayload < (251#8).toNat ∧
    (1#8 ≠ 0#8 ∧ (1#8).toNat < [0xAA#8, 0xBB#8].length) ∧
    ([0xAA#8, 0xBB#8].length < (3#8).toNat ∧ (3#8).toNat ≤ Config.p0.maxPayload) := by decide

theorem test_witness_ByteIsDiscardedWhileReceptionIsOff :
    disabled.cfg.cfgEnable = false ∧ sending.rxEn = false ∧ s0.cfg.cfgEnable = true ∧ s0.rxEn = true := by decide

/-- A poll for this slave with room and with the queue full, and one for slave 9. -/
theorem test_witness_CompletedFrameIsFilteredAndQueued :
    (queueFull.cfg.cfgEnable = true ∧ queueFull.rxEn = true) ∧
    outcome (decodeStep queueFull.cfg queueFull.rx 0x00) = some (.ready poll) ∧ poll.addr = queueFull.cfg.myAddr ∧
    queueFull.cfg.reqQueueDepth ≤ queueFull.rq.length ∧
    { queueFull with rq := [poll, poll, poll] }.rq.length < queueFull.cfg.reqQueueDepth ∧
    outcome (decodeStep s0.cfg { queueFull.rx with addr := 0x09 } 0x00) = some (.ready { poll with addr := 0x09 }) ∧
    ¬({ poll with addr := 0x09 }.addr = s0.cfg.myAddr ∨ { poll with addr := 0x09 }.addr = 0#8) := by decide

/-- The edges of the address classes: 126, 127 and 0. -/
theorem test_witness_FilterAcceptsOwnAddressAndBroadcast :
    configOk { Config.p0 with myAddr := 126 } = true ∧ addressClass 127 = .unassigned ∧ addressClass 126 = .slave ∧
    addressClass 0 = .broadcast := by decide

theorem test_witness_RxByteFrame : ∃ t, exec (.rxb 0xBB) awaitingPayload = .next t := ⟨_, rfl⟩

theorem test_witness_GoodFrameReachesTheQueue :
    configOk s0.cfg = true ∧ s0.cfg.cfgEnable = true ∧ s0.rxEn = true ∧ s0.rx.state = .idle ∧
    [0xAA#8, 0xBB#8].length ≤ s0.cfg.maxPayload := by decide

theorem test_witness_OnlyHeldStatesBetweenEvents :
    heldBetweenEvents awaitingCksum.rx.state = true ∧ ∃ t, exec (.rxb 0x18) awaitingCksum = .next t :=
  ⟨by decide, ⟨_, rfl⟩⟩

/-- A byte that ends a frame, one that starts one and one inside one, under both modes. -/
theorem test_witness_WindowFollowsTheMode :
    outcome (decodeStep awaitingCksum.cfg awaitingCksum.rx 0x18) = some .errChecksum ∧
    outcome (decodeStep firstByte s0.rx 0x05) = some .pending ∧
    outcome (decodeStep firstByte awaitingType.rx 0x01) = some .pending ∧ firstByte.sntMode = .fromFirstByte ∧
    s0.cfg.sntMode = .interByte := by decide

theorem test_witness_ReceiveErrorReturnsToIdle :
    view (fun t => decide (t.cnt.cksumErr ≠ awaitingCksum.cnt.cksumErr)) (exec (.rxb 0x18) awaitingCksum) =
      some true ∧
    view (fun t => decide (t.cnt.lenErr ≠ awaitingLength.cnt.lenErr)) (exec (.rxb 0xFB) awaitingLength) =
      some true := by decide

theorem test_witness_TickCountsDownAndFires :
    disabled.cfg.cfgEnable = false ∧ s0.snt.armed = false ∧ awaitingType.cfg.cfgEnable = true ∧
    awaitingType.snt.armed = true ∧ 2 ≤ awaitingType.snt.count ∧
    { awaitingType with snt := ⟨true, 1⟩ }.snt.count = 1 := by decide

theorem test_witness_SafetyNetFiresAfterItsWindow :
    awaitingType.cfg.cfgEnable = true ∧ awaitingType.snt.armed = true ∧ 1 ≤ awaitingType.snt.count ∧
    2 < awaitingType.snt.count := by decide

theorem test_witness_DesyncRecoversAndTheNextFrameDecodes :
    Inv awaitingPayload ∧ awaitingPayload.cfg.cfgEnable = true ∧ awaitingPayload.rxEn = true ∧
    awaitingPayload.rx.state ≠ .idle ∧ [0xAA#8, 0xBB#8].length ≤ awaitingPayload.cfg.maxPayload ∧
    awaitingPayload.rq.length < awaitingPayload.cfg.reqQueueDepth :=
  ⟨test_inv_receiving, by decide, by decide, by decide, by decide, by decide⟩

theorem test_witness_XorTracksTheFrame :
    Inv awaitingPayload ∧ XorTracksFrame awaitingPayload.rx ∧ ∃ t, exec (.rxb 0xBB) awaitingPayload = .next t := by
  refine ⟨test_inv_receiving, ⟨[0xAA], rfl, ?_, by decide⟩, ⟨_, rfl⟩⟩
  intro k b hb
  match k, hb with
  | 0, hb =>
    cases hb
    rfl

/-- A job in flight, a response one byte too long, and an acceptable one. -/
theorem test_witness_RejectedTxBeginOnlyCounts :
    disabled.cfg.cfgEnable = false ∧ (sending.cfg.cfgEnable = true ∧ sending.tx.active = true) ∧
    ((s0With tight).cfg.cfgEnable = true ∧ (s0With tight).cfg.maxPayload < (responseLen reply).toNat) ∧
    (s0.cfg.cfgEnable = true ∧ s0.tx.active = false ∧ s0.dir = .receive ∧
      (responseLen reply).toNat ≤ s0.cfg.maxPayload) := by decide

theorem test_witness_AcceptedTxBeginStartsTheJob :
    (s0.cfg.cfgEnable = true ∧ s0.tx.active = false ∧ s0.dir = .receive) ∧
    (reply.wf = true ∧ (responseLen reply).toNat ≤ s0.cfg.maxPayload) ∧
    (Response.empty.wf = true ∧ (responseLen .empty).toNat ≤ s0.cfg.maxPayload) := by decide

theorem test_witness_TxSpaceFillsTheFifo :
    ¬(sending.tx.active = true ∧ sending.utxFifo.length < sending.cfg.txFifoDepth) ∧
    HoldsResponse sendingSpace reply ∧ sendingSpace.tx.active = true ∧
    sendingSpace.utxFifo.length < sendingSpace.cfg.txFifoDepth ∧
    sendingSpace.tx.idx.toNat ≤ sendingSpace.tx.total.toNat :=
  ⟨by decide, test_holds_reply, by decide, by decide, by decide⟩

theorem test_witness_LineOutSendsTheHead :
    Inv sending ∧ sending.utxFifo ≠ [] ∧ s0.utxFifo = [] ∧ sending.utxFifo = 0x02 :: [0x01] ∧
    sending.cfg.echo = true ∧ sending.rxEn = false ∧
    { sending with cfg := { Config.p0 with echo := false } }.cfg.echo = false :=
  ⟨test_inv_sending, by decide, by decide, by decide, by decide, by decide, by decide⟩

theorem test_witness_EchoIsNeverDecoded : Inv sending ∧ ∃ t, exec .lout sending = .next t :=
  ⟨test_inv_sending, ⟨_, rfl⟩⟩

theorem test_witness_TxDoneReleasesTheBus :
    ¬(sending.tx.active = true ∧ sending.tx.idx = sending.tx.total ∧ sending.utxFifo = []) ∧
    drained.tx.active = true ∧ drained.tx.idx = drained.tx.total ∧ drained.utxFifo = [] := by decide

theorem test_witness_OnlyTxDoneEndsAJob :
    view (fun t => (t.tx.active, t.dir, t.rxEn)) (exec .txd drained) = some (false, .receive, true) ∧
    view (fun t => (t.tx.active, t.dir, t.rxEn)) (exec (.txb reply) s0) = some (true, .transmit, false) ∧
    drained.tx.active = true ∧ drained.dir = .transmit ∧ drained.rxEn = false ∧ s0.tx.active = false ∧
    s0.dir = .receive ∧ s0.rxEn = true := by decide

theorem test_witness_DirectionOperations : sending.dir = .transmit ∧ s0.dir = .receive := by decide

/-- The job of TX-4, from its txbegin to its txdone, with a rejected txbegin and a lost byte in between (TX-5, TX-8). -/
theorem test_witness_BytesOnTheLineAreTheEncodedResponse :
    Inv s0 ∧ Response.empty.wf = true ∧ s0.tx.active = false ∧
    ∃ s1 s2 s3, exec (.txb .empty) s0 = .next s1 ∧ s1.tx.active = true ∧
      (∀ e ∈ [Instr.txb .empty, .rxb 0x05, .txs, .lout], e ≠ .txd ∧ e ≠ .rst) ∧
      execAll [.txb .empty, .rxb 0x05, .txs, .lout] s1 = .next s2 ∧ exec .txd s2 = .next s3 :=
  ⟨test_inv_idle, by decide, by decide, _, _, _, rfl, by decide, by decide, rfl, rfl⟩

theorem test_witness_EveryJobCanFinish : Inv sending ∧ sending.tx.active = true := ⟨test_inv_sending, by decide⟩

theorem test_witness_NothingIsReceivedDuringAJob :
    Inv sending ∧ sending.tx.active = true ∧
    (∀ e ∈ [Instr.rxb 0x05, .lout, .txs], e ≠ .txd ∧ e ≠ .rst) ∧ (∀ e ∈ [Instr.rxb 0x05, .lout, .txs], e ≠ .tick) ∧
    ∃ t, execAll [.rxb 0x05, .lout, .txs] sending = .next t :=
  ⟨test_inv_sending, by decide, by decide, by decide, ⟨_, rfl⟩⟩

theorem test_witness_PopReturnsTheOldestFrame :
    s0.rq = [] ∧ queueFull.rq = poll :: [poll, poll, poll] := by decide

theorem test_witness_StatReturnsACounter : 5 < (6#8).toNat ∧ 5 < (255#8).toNat := by decide

theorem test_witness_RequestQueueIsFifo :
    (∃ t, exec .pop queueFull = .next t) ∧ (∃ t, exec (.rxb 0x17) awaitingCksum = .next t) ∧
    Instr.pop ≠ .rst := ⟨⟨_, rfl⟩, ⟨_, rfl⟩, by decide⟩

theorem test_witness_CountersOnlyCountUp :
    (∃ t, exec .tick { awaitingType with snt := ⟨true, 1⟩ } = .next t) ∧ Instr.tick ≠ .rst := ⟨⟨_, rfl⟩, by decide⟩

theorem test_witness_OneErrorPerEvent :
    (∃ t, exec (.rxb 0x18) awaitingCksum = .next t) ∧ (∃ t, exec .lout sending = .next t) ∧ sending.rxEn = false :=
  ⟨⟨_, rfl⟩, ⟨_, rfl⟩, by decide⟩

theorem test_witness_EventsWriteOnlyTheirOwnState :
    (∃ t, exec .lout sending = .next t) ∧ (∀ b, Instr.lout ≠ .rxb b) ∧ Instr.lout ≠ .rst ∧ sending.rxEn = false :=
  ⟨⟨_, rfl⟩, by simp, by decide, by decide⟩

theorem test_witness_EnabledEventsComplete :
    Inv drained ∧ (Instr.txb longest).wf = true ∧ enabled drained .txd = true ∧ enabled drained .lout = false :=
  ⟨test_inv_drained, test_wf_of_length (n := 255) (by decide), by decide, by decide⟩

theorem test_witness_DisabledEngineIsInert : DisabledAtReset disabled ∧ ∃ t, exec .pop disabled = .next t :=
  ⟨⟨rfl, rfl, rfl, rfl, rfl, rfl, rfl, rfl, rfl, rfl⟩, ⟨_, rfl⟩⟩

theorem test_witness_InvariantHoldsAtReset :
    configOk Config.p0 = true ∧ configOk tight = true ∧ configOk { Config.p0 with maxPayload := 255, myAddr := 126 } =
      true := by decide

theorem test_witness_EveryStepKeepsTheInvariant :
    Inv awaitingCksum ∧ Inv s0 ∧ ∃ t, step (State.reset.withFetchWord 16 0x1005) = .next t :=
  ⟨test_inv_awaitingCksum, test_inv_idle, ⟨_, rfl⟩⟩

theorem test_witness_NoStepFaults : Inv sending ∧ Inv queueFull := ⟨test_inv_sending, test_inv_queueFull⟩

theorem test_witness_EveryReachableStateMeetsR41 :
    configOk Config.p0 = true ∧
    ∃ t, Sys2Proof.core.run 3 { State.resetWith Config.p0 with trace := [0x1005, 0x1002, 0x1000] } = .next t :=
  ⟨by decide, ⟨_, rfl⟩⟩

/-- S0 and S0 with other stale values. -/
theorem test_witness_UnspecifiedRegistersAreNeverObserved :
    SameButUnread s0 { s0 with
      rx := { s0.rx with addr := 0x11, len := 0x22, buf := [(3, 0x33)] }
      snt := ⟨false, 2⟩
      tx := { s0.tx with mtype := 0x44, total := 7 } } := by
  refine ⟨rfl, rfl, by decide, by decide, by decide, by decide, ?_, rfl, by decide, rfl, rfl, rfl, by decide,
    by decide, by decide, by decide, by decide, rfl, rfl, rfl, rfl, rfl, rfl, rfl⟩
  intro k hk
  exact absurd hk (Nat.not_lt_zero k)

end Sys2Proof.Tests
end

section
/-! SUPPORT. The scope of a step (spec/00_scope.md R6 to R8): the step of a decoded event, the refusals of the fetch,
and that the configuration is fixed. -/

namespace Sys2Proof.Machine

/-! ### The fetch, one equation per outcome -/

theorem step_of_decode_ok {s : State} {i : Instr} {rest : List EventWord} (hc : configOk s.cfg = true)
    (hd : decode s.trace = .ok (i, rest)) : step s = exec i { s with trace := rest } := by
  simp [step, fetch, hc, hd]

theorem step_of_decode_error {s : State} {e : DecodeError} (hc : configOk s.cfg = true)
    (hd : decode s.trace = .error e) : step s = .refused (.noEvent e) := by
  simp [step, fetch, hc, hd]

theorem step_of_configOk_false {s : State} (hc : configOk s.cfg = false) : step s = .refused .badConfig := by
  simp [step, fetch, hc]

/-- The ranges of spec/00_scope.md R7 to R12. -/
theorem configOk_iff (c : Config) : configOk c = true ↔
    (c.myAddr ≠ 0#8 ∧ c.myAddr.toNat ≤ 126) ∧ (c.maxPayload ≠ 0 ∧ c.maxPayload ≤ 255) ∧
      c.sntWindow ≠ 0 ∧ c.reqQueueDepth ≠ 0 ∧ c.txFifoDepth ≠ 0 := by
  have haddr : c.myAddr ≠ 0#8 ↔ 1 ≤ c.myAddr.toNat := by
    rw [ne_eq, ← BitVec.toNat_inj, BitVec.toNat_ofNat]
    omega
  simp only [configOk, Bool.and_eq_true, decide_eq_true_eq, haddr]
  omega

/-! ### The configuration is fixed -/

theorem rxByte_cfg {b : Byte} {s t : State} (h : rxByte b s = .next t) : t.cfg = s.cfg := by
  rcases rxByte_next h with ⟨_, rfl⟩ | ⟨_, _, r, o, _, rfl⟩
  · rfl
  · simp

/-- No event writes the configuration (spec/00_scope.md R7). -/
theorem exec_cfg {i : Instr} {s t : State} (h : exec i s = .next t) : t.cfg = s.cfg := by
  cases i with
  | rxb b => exact rxByte_cfg h
  | tick => rcases execTick_next h with ⟨_, rfl⟩ | ⟨_, _, _, rfl⟩ | ⟨_, _, _, rfl⟩ <;> rfl
  | txb r =>
    rcases execTxb_next h with ⟨_, rfl⟩ | ⟨_, _, rfl⟩ | ⟨_, _, _, _, bs, _, _, _, ht⟩
    · rfl
    · rfl
    · rw [ht]
  | arg b => cases h
  | txs =>
    obtain ⟨_, _, bs, _, _, ht, _⟩ := execTxs_next h
    rw [ht]
  | lout =>
    obtain ⟨b, rest, _, ⟨_, hecho⟩ | ⟨_, rfl⟩⟩ := execLout_next h
    · simpa using rxByte_cfg hecho
    · rfl
  | txd =>
    obtain ⟨_, _, _, rfl⟩ := execTxd_next h
    rfl
  | pop => rcases execPop_next h with ⟨_, rfl⟩ | ⟨f, rest, _, rfl⟩ <;> rfl
  | stat sel =>
    cases h
    rfl
  | rst =>
    cases h
    rfl

theorem step_cfg {s t : State} (h : step s = .next t) : t.cfg = s.cfg := by
  obtain ⟨i, rest, _, _, he⟩ := step_next h
  simpa using exec_cfg he

/-! ### The obligations of the scope -/

/-- Settles O6, by the two equations of the fetch under a configuration in its ranges. -/
theorem stepRunsTheDecodedEvent : Obligations.StepRunsTheDecodedEvent :=
  ⟨fun _ _ _ hc hd => step_of_decode_ok hc hd, fun _ _ hc hd => step_of_decode_error hc hd⟩

/-- Settles O7: a bound that is broken fails the check of the fetch, and no event writes the configuration. -/
theorem configurationIsCheckedAndFixed : Obligations.ConfigurationIsCheckedAndFixed := by
  refine ⟨fun s hbad => step_of_configOk_false ?_, fun _ _ _ h => exec_cfg h, fun _ _ h => step_cfg h⟩
  rw [← Bool.not_eq_true, configOk_iff]
  rintro ⟨⟨haddr, haddrMax⟩, ⟨hpay, hpayMax⟩, hsnt, hqueue, hfifo⟩
  rcases hbad with h | h | h | h | h | h | h
  · exact haddr h
  · exact absurd haddrMax (Nat.not_le.2 h)
  · exact hpay h
  · exact absurd hpayMax (Nat.not_le.2 h)
  · exact hsnt h
  · exact hqueue h
  · exact hfifo h

end Sys2Proof.Machine
end

section
/-! SUPPORT. What every event does to the receive registers and to the counters, and what each event leaves unchanged
(spec/10_state.md section 7). -/

namespace Sys2Proof.Machine

/-! ### The receive registers -/

/-- The registers a decode step leaves after its exit: in IDLE with the buffer as it was, or in the next state of the
frame. -/
theorem decodeStep_exit {c : Config} {r r' : RxRegs} {b : Byte} {o : Decoded} (h : decodeStep c r b = .ok (r', o)) :
    ((exitToIdle r' o).state = .idle ∧ (exitToIdle r' o).buf = r.buf) ∨
    (r.state = .idle ∧ exitToIdle r' o = { r with addr := b, acc := b, state := .awType }) ∨
    (r.state = .awType ∧ exitToIdle r' o = { r with mtype := b, acc := r.acc ^^^ b, state := .awLen }) ∨
    (r.state = .awLen ∧ b ≠ 0#8 ∧ b.toNat ≤ c.maxPayload ∧
      exitToIdle r' o = { r with len := b, acc := r.acc ^^^ b, rem := b, state := .awPayload }) ∨
    (r.state = .awPayload ∧ 1 < r.rem.toNat ∧ exitToIdle r' o =
      { r with buf := Memory.write r.buf (r.len - r.rem).toNat b, acc := r.acc ^^^ b, rem := r.rem - 1,
               state := .awPayload }) ∨
    (r.state = .awPayload ∧ r.rem.toNat ≤ 1 ∧ exitToIdle r' o =
      { r with buf := Memory.write r.buf (r.len - r.rem).toNat b, acc := r.acc ^^^ b, rem := 0,
               state := .awCksum }) := by
  rcases decodeStep_ok h with ⟨hs, rfl, rfl⟩ | ⟨hs, rfl, rfl⟩ | ⟨_, _, rfl, rfl⟩ | ⟨_, _, _, rfl, rfl⟩ |
    ⟨hs, hb, hl, rfl, rfl⟩ | ⟨hs, _, hr, rfl, rfl⟩ | ⟨hs, _, hr, rfl, rfl⟩ | ⟨_, _, ⟨p, _, rfl⟩, rfl⟩ |
    ⟨_, _, rfl, rfl⟩ | ⟨_, rfl, rfl⟩
  · exact .inr (.inl ⟨hs, rfl⟩)
  · exact .inr (.inr (.inl ⟨hs, rfl⟩))
  · exact .inl ⟨rfl, rfl⟩
  · exact .inl ⟨rfl, rfl⟩
  · exact .inr (.inr (.inr (.inl ⟨hs, hb, hl, rfl⟩)))
  · exact .inr (.inr (.inr (.inr (.inl ⟨hs, hr, by rw [← hs]; rfl⟩))))
  · exact .inr (.inr (.inr (.inr (.inr ⟨hs, hr, rfl⟩))))
  · exact .inl ⟨rfl, rfl⟩
  · exact .inl ⟨rfl, rfl⟩
  · exact .inl ⟨rfl, rfl⟩

theorem decodeStep_held {c : Config} {r r' : RxRegs} {b : Byte} {o : Decoded} (h : decodeStep c r b = .ok (r', o)) :
    heldBetweenEvents (exitToIdle r' o).state = true := by
  rcases decodeStep_exit h with ⟨hs, _⟩ | ⟨_, he⟩ | ⟨_, he⟩ | ⟨_, _, _, he⟩ | ⟨_, _, he⟩ | ⟨_, _, he⟩
  · rw [hs]; rfl
  all_goals rw [he]; rfl

/-- A decode step writes `rx_buf` at most at the index of the payload byte (spec/40_codec.md R91). -/
theorem decodeStep_read_buf {c : Config} {r r' : RxRegs} {b : Byte} {o : Decoded} {j : Nat}
    (h : decodeStep c r b = .ok (r', o)) (hj : ¬(r.state = .awPayload ∧ j = (r.len - r.rem).toNat)) :
    Memory.read (exitToIdle r' o).buf j = Memory.read r.buf j := by
  rcases decodeStep_exit h with ⟨_, he⟩ | ⟨_, he⟩ | ⟨_, he⟩ | ⟨_, _, _, he⟩ | ⟨hs, _, he⟩ | ⟨hs, _, he⟩
  · rw [he]
  · rw [he]
  · rw [he]
  · rw [he]
  all_goals
    rw [he]
    exact Memory.read_write_ne _ _ fun hi => hj ⟨hs, hi⟩

theorem rxByte_rx {b : Byte} {s t : State} (h : rxByte b s = .next t) :
    t.rx = s.rx ∨ ∃ r o, decodeStep s.cfg s.rx b = .ok (r, o) ∧ t.rx = exitToIdle r o := by
  rcases rxByte_next h with ⟨_, rfl⟩ | ⟨_, _, r, o, hd, rfl⟩
  · exact .inl rfl
  · exact .inr ⟨r, o, hd, by simp⟩

/-- Everything an event can do to the receive registers: nothing, a return to IDLE (TICK, RST), or one decode step
(RXB, the echo of LOUT). -/
theorem exec_rx {i : Instr} {s t : State} (h : exec i s = .next t) :
    t.rx = s.rx ∨ t.rx.state = .idle ∨
      ∃ b r o, decodeStep s.cfg s.rx b = .ok (r, o) ∧ t.rx = exitToIdle r o := by
  cases i with
  | rxb b => exact (rxByte_rx h).imp id fun hd => .inr ⟨b, hd⟩
  | tick =>
    rcases execTick_next h with ⟨_, rfl⟩ | ⟨_, _, _, rfl⟩ | ⟨_, _, _, rfl⟩
    · exact .inl rfl
    · exact .inr (.inl rfl)
    · exact .inl rfl
  | txb r =>
    rcases execTxb_next h with ⟨_, rfl⟩ | ⟨_, _, rfl⟩ | ⟨_, _, _, _, bs, _, _, _, ht⟩
    · exact .inl rfl
    · exact .inl rfl
    · exact .inl (by rw [ht])
  | arg b => cases h
  | txs =>
    obtain ⟨_, _, bs, _, _, ht, _⟩ := execTxs_next h
    exact .inl (by rw [ht])
  | lout =>
    obtain ⟨b, rest, _, ⟨_, hecho⟩ | ⟨_, rfl⟩⟩ := execLout_next h
    · exact (rxByte_rx hecho).imp id fun hd => .inr ⟨b, hd⟩
    · exact .inl rfl
  | txd =>
    obtain ⟨_, _, _, rfl⟩ := execTxd_next h
    exact .inl rfl
  | pop => rcases execPop_next h with ⟨_, rfl⟩ | ⟨f, rest, _, rfl⟩ <;> exact .inl rfl
  | stat sel =>
    cases h
    exact .inl rfl
  | rst =>
    cases h
    exact .inr (.inl rfl)

theorem exec_held {i : Instr} {s t : State} (hs : heldBetweenEvents s.rx.state = true) (h : exec i s = .next t) :
    heldBetweenEvents t.rx.state = true := by
  rcases exec_rx h with he | he | ⟨b, r, o, hd, he⟩
  · rw [he, hs]
  · rw [he]; rfl
  · rw [he, decodeStep_held hd]

/-! ### The counters -/

/-- A counter stays or goes up by one (spec/10_state.md R36). -/
def CountedOnce (x y : Counter) : Prop := y = x ∨ y = x + 1

/-- Each of the six counters stays or goes up by one. -/
def CountedUp (c d : Stats) : Prop :=
  CountedOnce c.frames d.frames ∧ CountedOnce c.cksumErr d.cksumErr ∧ CountedOnce c.desync d.desync ∧
    CountedOnce c.lenErr d.lenErr ∧ CountedOnce c.fault d.fault ∧ CountedOnce c.qovf d.qovf

theorem CountedOnce.refl (x : Counter) : CountedOnce x x := .inl rfl

theorem CountedOnce.succ (x : Counter) : CountedOnce x (x + 1) := .inr rfl

theorem CountedUp.refl (c : Stats) : CountedUp c c := by simp [CountedUp, CountedOnce]

theorem CountedUp.count (c : Stats) (e : EngineError) : CountedUp c (c.count e) := by
  cases e <;> simp [CountedUp, CountedOnce]

theorem rxExit_countedUp (o : Decoded) (s : State) : CountedUp s.cnt (rxExit o s).cnt := by
  cases o with
  | pending => exact .refl _
  | ready f =>
    rw [rxExit_cnt]
    refine ⟨.succ _, .refl _, .refl _, .refl _, .refl _, ?_⟩
    simp only
    split
    · exact .succ _
    · exact .refl _
  | errLength => exact .count _ .length
  | errChecksum => exact .count _ .checksum

theorem rxByte_countedUp {b : Byte} {s t : State} (h : rxByte b s = .next t) : CountedUp s.cnt t.cnt := by
  rcases rxByte_next h with ⟨_, rfl⟩ | ⟨_, _, r, o, _, rfl⟩
  · exact .refl _
  · exact rxExit_countedUp o { s with rx := r }

theorem exec_countedUp {i : Instr} {s t : State} (h : exec i s = .next t) (hi : i ≠ .rst) :
    CountedUp s.cnt t.cnt := by
  cases i with
  | rxb b => exact rxByte_countedUp h
  | tick =>
    rcases execTick_next h with ⟨_, rfl⟩ | ⟨_, _, _, rfl⟩ | ⟨_, _, _, rfl⟩
    · exact .refl _
    · exact .count _ .desync
    · exact .refl _
  | txb r =>
    rcases execTxb_next h with ⟨_, rfl⟩ | ⟨_, _, rfl⟩ | ⟨_, _, _, _, bs, _, _, _, ht⟩
    · exact .refl _
    · exact .count _ .txMisuse
    · rw [ht]
      exact .refl _
  | arg b => cases h
  | txs =>
    obtain ⟨_, _, bs, _, _, ht, _⟩ := execTxs_next h
    rw [ht]
    exact .refl _
  | lout =>
    obtain ⟨b, rest, _, ⟨_, hecho⟩ | ⟨_, rfl⟩⟩ := execLout_next h
    · simpa using rxByte_countedUp hecho
    · exact .refl _
  | txd =>
    obtain ⟨_, _, _, rfl⟩ := execTxd_next h
    exact .refl _
  | pop => rcases execPop_next h with ⟨_, rfl⟩ | ⟨f, rest, _, rfl⟩ <;> exact .refl _
  | stat sel =>
    cases h
    exact .refl _
  | rst => exact absurd rfl hi

/-! ### The queue and the counters of a received byte -/

theorem rxExit_rq_append (o : Decoded) (s : State) : ∃ fs, (rxExit o s).rq = s.rq ++ fs ∧ fs.length ≤ 1 := by
  cases o with
  | ready f =>
    rw [rxExit_rq]
    simp only
    split
    · exact ⟨[f], rfl, Nat.le_refl _⟩
    · exact ⟨[], by simp, Nat.zero_le _⟩
  | _ => exact ⟨[], by simp, Nat.zero_le _⟩

theorem rxExit_cnt_desync (o : Decoded) (s : State) : (rxExit o s).cnt.desync = s.cnt.desync := by
  rw [rxExit_cnt]
  cases o <;> rfl

theorem rxExit_cnt_fault (o : Decoded) (s : State) : (rxExit o s).cnt.fault = s.cnt.fault := by
  rw [rxExit_cnt]
  cases o <;> rfl

end Sys2Proof.Machine
end

section
/-! CERTIFICATES. The frame of every event and the held receive states (spec/10_state.md R20, R36, R45). -/

namespace Sys2Proof.Machine

/-- Settles O24: a byte that is decoded writes only what its decode step, its exit and the safety net write. -/
theorem rxByteFrame : Obligations.RxByteFrame := by
  intro s t b h
  rcases rxByte_next h with ⟨_, rfl⟩ | ⟨_, _, r, o, hd, rfl⟩
  · exact ⟨rfl, rfl, rfl, rfl, rfl, rfl, rfl, rfl, rfl, rfl, rfl, ⟨[], by simp, Nat.zero_le _⟩, fun _ _ => rfl⟩
  · refine ⟨by simp, by simp, by simp, by simp, by simp, by simp, by simp, by simp, by simp, ?_, ?_,
      rxExit_rq_append o { s with rx := r }, fun j hj => ?_⟩
    · exact rxExit_cnt_desync o { s with rx := r }
    · exact rxExit_cnt_fault o { s with rx := r }
    · rw [safetyNetAfterByte_rx, rxExit_rx]
      exact decodeStep_read_buf hd hj

/-- Settles O26: a decode step ends, after its exit, in a held state, and every other event keeps `rx_state` or sets it
to IDLE. -/
theorem onlyHeldStatesBetweenEvents : Obligations.OnlyHeldStatesBetweenEvents :=
  ⟨fun _ => rfl, fun _ _ _ hs h => exec_held hs h⟩

/-- Settles O47, event by event. -/
theorem countersOnlyCountUp : Obligations.CountersOnlyCountUp := fun _ _ _ h hi => exec_countedUp h hi

/-- Settles O49, event by event from what each can do; the echo of LOUT is discarded, as reception is off. -/
theorem eventsWriteOnlyTheirOwnState : Obligations.EventsWriteOnlyTheirOwnState := by
  intro i s t h hrxb hrst hlout
  cases i with
  | rxb b => exact absurd rfl (hrxb b)
  | tick => rcases execTick_next h with ⟨_, rfl⟩ | ⟨_, _, _, rfl⟩ | ⟨_, _, _, rfl⟩ <;> simp
  | txb r =>
    rcases execTxb_next h with ⟨_, rfl⟩ | ⟨_, _, rfl⟩ | ⟨_, _, _, _, bs, _, _, _, ht⟩
    · simp
    · simp
    · rw [ht]
      simp
  | arg b => cases h
  | txs =>
    obtain ⟨_, _, bs, _, _, ht, _⟩ := execTxs_next h
    rw [ht]
    simp
  | lout =>
    obtain ⟨b, rest, hf, _⟩ := execLout_next h
    cases (execLout_of_rxOff hf (hlout rfl)).symm.trans h
    simp
  | txd =>
    obtain ⟨_, _, _, rfl⟩ := execTxd_next h
    simp
  | pop => rcases execPop_next h with ⟨_, rfl⟩ | ⟨f, rest, _, rfl⟩ <;> simp
  | stat sel =>
    cases h
    simp
  | rst => exact absurd rfl hrst

end Sys2Proof.Machine
end

section
/-! SUPPORT. The invariant of spec/10_state.md R41 in three parts, one for each side of the engine, and what the events
do to each part: the receive registers with the safety net, the transmit job with its FIFO, and the request queue. -/

namespace Sys2Proof.Machine

/-! ### The receive side: R41 items 4 to 6 -/

/-- R41 items 4 and 5, of the receive registers. -/
structure RegsOk (c : Config) (r : RxRegs) : Prop where
  payloadState : r.state = .awPayload →
    1 ≤ r.rem.toNat ∧ r.rem.toNat ≤ r.len.toNat ∧ r.len.toNat ≤ c.maxPayload
  cksumState : r.state = .awCksum → 1 ≤ r.len.toNat ∧ r.len.toNat ≤ c.maxPayload

/-- R41 items 4 to 6, of the receive registers and the safety net. -/
structure ReceiveOk (c : Config) (r : RxRegs) (t : Snt) : Prop extends RegsOk c r where
  armedIffBusy : t.armed = true ↔ r.state ≠ .idle
  countInWindow : t.armed = true → 1 ≤ t.count ∧ t.count ≤ c.sntWindow

theorem RegsOk.of_ne {c : Config} {r : RxRegs} (hp : r.state ≠ .awPayload) (hc : r.state ≠ .awCksum) : RegsOk c r :=
  ⟨fun h => absurd h hp, fun h => absurd h hc⟩

theorem ReceiveOk.of_idle {c : Config} {r : RxRegs} {t : Snt} (hr : r.state = .idle) (ht : t.armed = false) :
    ReceiveOk c r t :=
  ⟨.of_ne (by simp [hr]) (by simp [hr]), by simp [hr, ht], by simp [ht]⟩

/-- A TICK that does not fire the safety net leaves its count inside the window (spec/41_receive.md R110). -/
theorem ReceiveOk.count_down {c : Config} {r : RxRegs} {t : Snt} (h : ReceiveOk c r t) (ha : t.armed = true)
    (h0 : t.count - 1 ≠ 0) : ReceiveOk c r ⟨true, t.count - 1⟩ := by
  obtain ⟨_, hw⟩ := h.countInWindow ha
  exact ⟨h.toRegsOk, by simpa [ha] using h.armedIffBusy,
    fun _ => ⟨Nat.pos_of_ne_zero h0, Nat.le_trans (Nat.sub_le _ _) hw⟩⟩

theorem sntAfterByte_idle (c : Config) (prev : RxState) (t : Snt) :
    sntAfterByte c prev .idle t = { t with armed := false } := rfl

/-- After a byte that does not lead to IDLE the timer is armed, its count inside the window, under both modes
(spec/41_receive.md R108, R109). -/
theorem sntAfterByte_busy {c : Config} {r : RxRegs} {t : Snt} {now : RxState} (hw : 1 ≤ c.sntWindow)
    (h : ReceiveOk c r t) (hn : now ≠ .idle) :
    (sntAfterByte c r.state now t).armed = true ∧
      1 ≤ (sntAfterByte c r.state now t).count ∧ (sntAfterByte c r.state now t).count ≤ c.sntWindow := by
  unfold sntAfterByte
  rw [if_neg hn]
  split
  · exact ⟨rfl, hw, Nat.le_refl _⟩
  · split
    · exact ⟨rfl, hw, Nat.le_refl _⟩
    · rename_i hprev
      have ha := h.armedIffBusy.2 hprev
      exact ⟨ha, h.countInWindow ha⟩

theorem toNat_pred_byte {x : Byte} (h : 1 ≤ x.toNat) : (x - 1).toNat = x.toNat - 1 := toNat_sub_byte (b := 1) h

/-- A decode step keeps items 4 and 5, whatever state it leads to (spec/40_codec.md R90, R91). -/
theorem RegsOk.after_decodeStep {c : Config} {r r' : RxRegs} {b : Byte} {o : Decoded} (h : RegsOk c r)
    (hd : decodeStep c r b = .ok (r', o)) : RegsOk c (exitToIdle r' o) := by
  rcases decodeStep_exit hd with ⟨hs, _⟩ | ⟨_, he⟩ | ⟨_, he⟩ | ⟨_, hb, hl, he⟩ | ⟨hs, hr, he⟩ | ⟨hs, _, he⟩
  · exact .of_ne (by simp [hs]) (by simp [hs])
  · exact .of_ne (by simp [he]) (by simp [he])
  · exact .of_ne (by simp [he]) (by simp [he])
  · rw [he]
    have hb0 : b.toNat ≠ 0 := fun h0 => hb (BitVec.eq_of_toNat_eq h0)
    exact ⟨fun _ => ⟨Nat.pos_of_ne_zero hb0, Nat.le_refl _, hl⟩, nofun⟩
  · rw [he]
    obtain ⟨h1, hrl, hlm⟩ := h.payloadState hs
    have hrem := toNat_pred_byte h1
    exact ⟨fun _ => ⟨by simp only [hrem]; omega, by simp only [hrem]; omega, hlm⟩, nofun⟩
  · rw [he]
    obtain ⟨h1, hrl, hlm⟩ := h.payloadState hs
    exact ⟨nofun, fun _ => ⟨Nat.le_trans h1 hrl, hlm⟩⟩

/-- A decoded byte keeps the receive side. -/
theorem ReceiveOk.after_decodeStep {c : Config} {r r' : RxRegs} {t : Snt} {b : Byte} {o : Decoded}
    (hw : 1 ≤ c.sntWindow) (h : ReceiveOk c r t) (hd : decodeStep c r b = .ok (r', o)) :
    ReceiveOk c (exitToIdle r' o) (sntAfterByte c r.state (exitToIdle r' o).state t) := by
  by_cases hq : (exitToIdle r' o).state = .idle
  · exact .of_idle hq (by rw [hq, sntAfterByte_idle])
  · obtain ⟨ha, hcount⟩ := sntAfterByte_busy hw h hq
    exact ⟨h.toRegsOk.after_decodeStep hd, by simp [ha, hq], fun _ => hcount⟩

/-! ### The transmit side: R41 items 1 to 3, 7 and 8, with R31 and R32 -/

/-- Of a job in flight: R41 item 3, R31 and R32. -/
structure JobOk (c : Config) (j : TxJob) (fifo : List Byte) : Prop where
  idxLeTotal : j.idx.toNat ≤ j.total.toNat
  fifoLeIdx : fifo.length ≤ j.idx.toNat
  fifoBytes : ∀ k : Nat, ∀ b : Byte, fifo[k]? = some b → txByte c j (j.idx.toNat - fifo.length + k) = .ok b
  len : j.len.toNat ≤ c.maxPayload
  total : j.total.toNat = if j.len = 0#8 then 1 else j.len.toNat + 3

/-- R41 items 1 to 3, 7 and 8, of the transmit side. -/
structure TransmitOk (c : Config) (j : TxJob) (rxEn : Bool) (d : Dir) (fifo : List Byte) : Prop where
  activeIffTransmit : j.active = true ↔ d = .transmit
  activeIffRxOff : j.active = true ↔ rxEn = false
  fifoOnlyInJob : fifo ≠ [] → j.active = true
  fifoBound : fifo.length ≤ c.txFifoDepth
  echoOnlyInJob : j.echoPending = true → j.active = true ∧ c.echo = true
  job : j.active = true → JobOk c j fifo

/-- `Load` pushes the next bytes of the response and moves `tx_idx` past them (spec/42_transmit.md R121). -/
theorem JobOk.append {c : Config} {j : TxJob} {fifo bs : List Byte} {x : TxIndex} (h : JobOk c j fifo)
    (hx : x.toNat = j.idx.toNat + bs.length) (hle : x.toNat ≤ j.total.toNat)
    (hb : ∀ k : Nat, ∀ b, bs[k]? = some b → txByte c j (j.idx.toNat + k) = .ok b) :
    JobOk c { j with idx := x } (fifo ++ bs) := by
  have hfifo := h.fifoLeIdx
  refine ⟨hle, by simp only [List.length_append]; omega, fun k b hk => ?_, h.len, h.total⟩
  simp only [txByte_idx, List.length_append]
  rcases Nat.lt_or_ge k fifo.length with hlt | hge
  · rw [List.getElem?_append_left hlt] at hk
    rw [show x.toNat - (fifo.length + bs.length) + k = j.idx.toNat - fifo.length + k by omega]
    exact h.fifoBytes k b hk
  · rw [List.getElem?_append_right hge] at hk
    rw [show x.toNat - (fifo.length + bs.length) + k = j.idx.toNat + (k - fifo.length) by omega]
    exact hb _ b hk

/-- LINE_OUT takes the head of the FIFO (spec/42_transmit.md R123). -/
theorem JobOk.tail {c : Config} {j : TxJob} {b : Byte} {rest : List Byte} (h : JobOk c j (b :: rest)) :
    JobOk c j rest := by
  have hfifo := h.fifoLeIdx
  simp only [List.length_cons] at hfifo
  refine ⟨h.idxLeTotal, by omega, fun k d hk => ?_, h.len, h.total⟩
  have := h.fifoBytes (k + 1) d (by simpa using hk)
  simp only [List.length_cons] at this
  rwa [show j.idx.toNat - (rest.length + 1) + (k + 1) = j.idx.toNat - rest.length + k by omega] at this

theorem toNat_txTotalOf (len : Byte) : (txTotalOf len).toNat = if len = 0#8 then 1 else len.toNat + 3 := by
  have := len.isLt
  unfold txTotalOf
  split
  · rfl
  · rw [BitVec.toNat_add, BitVec.toNat_setWidth, show (3 : BitVec 9).toNat = 3 from rfl]
    omega

@[simp] theorem startJob_len (c : Config) (r : Response) (j : TxJob) : (startJob c r j).len = responseLen r := by
  cases r <;> rfl

@[simp] theorem startJob_total (c : Config) (r : Response) (j : TxJob) :
    (startJob c r j).total = txTotalOf (responseLen r) := rfl

@[simp] theorem startJob_idx (c : Config) (r : Response) (j : TxJob) : (startJob c r j).idx = 0 := rfl

@[simp] theorem startJob_active (c : Config) (r : Response) (j : TxJob) : (startJob c r j).active = true := rfl

@[simp] theorem startJob_echoPending (c : Config) (r : Response) (j : TxJob) :
    (startJob c r j).echoPending = c.echo := rfl

/-- The job of an accepted TX_BEGIN, before its first `Load` (spec/42_transmit.md R120). -/
theorem JobOk.start {c : Config} {r : Response} (j : TxJob) (h : (responseLen r).toNat ≤ c.maxPayload) :
    JobOk c (startJob c r j) [] :=
  ⟨by simp, by simp, by simp, by simpa using h, by rw [startJob_total, startJob_len, toNat_txTotalOf]⟩

theorem TransmitOk.of_noJob {c : Config} {j : TxJob} (ha : j.active = false) (he : j.echoPending = false) :
    TransmitOk c j true .receive [] := by
  constructor <;> simp [ha, he]

theorem TransmitOk.start {c : Config} {r : Response} (j : TxJob) (h : (responseLen r).toNat ≤ c.maxPayload) :
    TransmitOk c (startJob c r j) false .transmit [] :=
  ⟨by simp, by simp, by simp, by simp, by simp, fun _ => .start j h⟩

theorem TransmitOk.after_load {c : Config} {j : TxJob} {en : Bool} {d : Dir} {fifo bs : List Byte} {x : TxIndex}
    (h : TransmitOk c j en d fifo) (ha : j.active = true)
    (hl : bs.length = min (j.total.toNat - j.idx.toNat) (c.txFifoDepth - fifo.length))
    (hx : x.toNat = j.idx.toNat + bs.length)
    (hb : ∀ k : Nat, ∀ b, bs[k]? = some b → txByte c j (j.idx.toNat + k) = .ok b) :
    TransmitOk c { j with idx := x } en d (fifo ++ bs) := by
  have hj := h.job ha
  have hle := hj.idxLeTotal
  have hbound := h.fifoBound
  exact ⟨h.activeIffTransmit, h.activeIffRxOff, fun _ => ha, by rw [List.length_append]; omega, h.echoOnlyInJob,
    fun _ => hj.append hx (by omega) hb⟩

theorem TransmitOk.tail {c : Config} {j : TxJob} {en : Bool} {d : Dir} {b : Byte} {rest : List Byte}
    (h : TransmitOk c j en d (b :: rest)) : TransmitOk c j en d rest :=
  ⟨h.activeIffTransmit, h.activeIffRxOff, fun _ => h.fifoOnlyInJob (by simp), Nat.le_of_succ_le h.fifoBound,
    h.echoOnlyInJob, fun ha => (h.job ha).tail⟩

/-! ### The request queue: R41 item 7, with R16 -/

/-- What a queued frame is (spec/00_scope.md R16, spec/41_receive.md R106). -/
def FrameOk (c : Config) (f : Frame) : Prop :=
  f.payload.length = f.len.toNat ∧ f.len.toNat ≤ c.maxPayload ∧ (f.addr = c.myAddr ∨ f.addr = 0#8)

/-- R41 item 7 of the request queue, and its frames. -/
structure QueueOk (c : Config) (rq : List Frame) : Prop where
  queueBound : rq.length ≤ c.reqQueueDepth
  frames : ∀ f ∈ rq, FrameOk c f

theorem QueueOk.nil (c : Config) : QueueOk c [] := ⟨Nat.zero_le _, by simp⟩

theorem QueueOk.tail {c : Config} {f : Frame} {rest : List Frame} (h : QueueOk c (f :: rest)) : QueueOk c rest :=
  ⟨Nat.le_of_succ_le h.queueBound, fun g hg => h.frames g (List.mem_cons_of_mem _ hg)⟩

theorem QueueOk.append {c : Config} {rq : List Frame} {f : Frame} (h : QueueOk c rq)
    (hlt : rq.length < c.reqQueueDepth) (hf : FrameOk c f) : QueueOk c (rq ++ [f]) := by
  refine ⟨by simpa using hlt, fun g hg => ?_⟩
  rcases List.mem_append.1 hg with hg | hg
  · exact h.frames g hg
  · rwa [List.mem_singleton.1 hg]

/-- A range read that answers lies inside the buffer. -/
theorem memReadRange_le {which : Buffer} {n i k : Nat} {m : Memory} {bs : List Byte}
    (h : memReadRange which n m i (k + 1) = .ok bs) : i + k < n := by
  obtain ⟨hl, hr⟩ := memReadRange_ok.1 h
  exact (hr k _ (List.getElem?_eq_getElem (by omega))).1

/-- A decoded frame has the payload its length says, and no more than `MAX_PAYLOAD` (spec/40_codec.md R90, R92). -/
theorem decodeStep_ready {c : Config} {r r' : RxRegs} {b : Byte} {f : Frame}
    (h : decodeStep c r b = .ok (r', .ready f)) : f.payload.length = f.len.toNat ∧ f.len.toNat ≤ c.maxPayload := by
  rcases decodeStep_ok h with ⟨_, ho, _⟩ | ⟨_, ho, _⟩ | ⟨_, _, ho, _⟩ | ⟨_, _, _, ho, _⟩ | ⟨_, _, _, ho, _⟩ |
    ⟨_, _, _, ho, _⟩ | ⟨_, _, _, ho, _⟩ | ⟨_, _, ⟨p, hp, ho⟩, _⟩ | ⟨_, _, ho, _⟩ | ⟨_, ho, _⟩ <;> cases ho
  · exact ⟨rfl, Nat.zero_le _⟩
  · refine ⟨(memReadRange_ok.1 hp).1, ?_⟩
    simp only
    cases hn : r.len.toNat with
    | zero => exact Nat.zero_le _
    | succ n =>
      rw [hn] at hp
      have := memReadRange_le hp
      omega

/-- The exit of a decode step queues at most an accepted frame that has room (spec/41_receive.md R105 to R107). -/
theorem QueueOk.after_rxExit {s : State} {r : RxRegs} {b : Byte} {o : Decoded} (h : QueueOk s.cfg s.rq)
    (hd : decodeStep s.cfg s.rx b = .ok (r, o)) : QueueOk s.cfg (rxExit o { s with rx := r }).rq := by
  cases o with
  | ready f =>
    rw [rxExit_rq]
    simp only
    split
    · rename_i hf
      obtain ⟨hpayload, hlen⟩ := decodeStep_ready hd
      exact h.append hf.2 ⟨hpayload, hlen, hf.1⟩
    · exact h
  | _ => exact h

/-! ### The invariant and its parts -/

/-- The three sides of a state. -/
structure SidesOk (s : State) : Prop where
  receive : ReceiveOk s.cfg s.rx s.snt
  transmit : TransmitOk s.cfg s.tx s.rxEn s.dir s.utxFifo
  queue : QueueOk s.cfg s.rq

theorem Inv.sidesOk {s : State} (h : Inv s) : SidesOk s :=
  have g := h.r41
  ⟨⟨⟨g.payloadState, g.cksumState⟩, g.armedIffBusy, g.countInWindow⟩,
    ⟨g.activeIffTransmit, g.activeIffRxOff, g.fifoOnlyInJob, g.fifoBound, g.echoOnlyInJob,
      fun ha => ⟨g.idxLeTotal ha, g.fifoLeIdx ha, g.fifoBytes ha, h.txLen ha, h.txTotal ha⟩⟩,
    ⟨g.queueBound, h.frames⟩⟩

theorem SidesOk.r41 {s : State} (h : SidesOk s) : R41 s :=
  have ⟨hr, ht, hq⟩ := h
  ⟨ht.activeIffTransmit, ht.activeIffRxOff, ht.fifoOnlyInJob, fun ha => (ht.job ha).idxLeTotal,
    fun ha => (ht.job ha).fifoLeIdx, fun ha => (ht.job ha).fifoBytes, hr.payloadState, hr.cksumState,
    hr.armedIffBusy, hr.countInWindow, hq.queueBound, ht.fifoBound, ht.echoOnlyInJob⟩

/-- The invariant is its three sides, the configuration's ranges, the held states and the buffers' form. -/
theorem SidesOk.inv {s : State} (h : SidesOk s) (hc : configOk s.cfg = true)
    (hheld : heldBetweenEvents s.rx.state = true)
    (hwf : Memory.wf s.rx.buf = true ∧ Memory.wf s.tx.buf = true) : Inv s :=
  ⟨hc, h.r41, hheld, hwf.1, hwf.2, fun ha => (h.transmit.job ha).len, fun ha => (h.transmit.job ha).total,
    h.queue.frames⟩

theorem Inv.withTrace {s : State} (h : Inv s) (words : List EventWord) : Inv { s with trace := words } :=
  have ⟨hr, ht, hq⟩ := h.sidesOk
  SidesOk.inv ⟨hr, ht, hq⟩ h.config h.held ⟨h.rxCanonical, h.txCanonical⟩

theorem rxByte_sidesOk {b : Byte} {s t : State} (hw : 1 ≤ s.cfg.sntWindow) (hs : SidesOk s)
    (h : rxByte b s = .next t) : SidesOk t := by
  rcases rxByte_next h with ⟨_, rfl⟩ | ⟨_, _, r, o, hd, rfl⟩
  · exact hs
  · exact ⟨by simpa using hs.receive.after_decodeStep hw hd, by simpa using hs.transmit,
      by simpa using hs.queue.after_rxExit hd⟩

/-- Every event keeps the three sides. -/
theorem exec_sidesOk {i : Instr} {s t : State} (hw : 1 ≤ s.cfg.sntWindow) (hs : SidesOk s) (h : exec i s = .next t) :
    SidesOk t := by
  obtain ⟨hr, hx, hq⟩ := hs
  cases i with
  | rxb b => exact rxByte_sidesOk hw ⟨hr, hx, hq⟩ h
  | tick =>
    rcases execTick_next h with ⟨_, rfl⟩ | ⟨_, _, _, rfl⟩ | ⟨_, ha, h0, rfl⟩
    · exact ⟨hr, hx, hq⟩
    · exact ⟨.of_idle rfl rfl, hx, hq⟩
    · exact ⟨hr.count_down ha h0, hx, hq⟩
  | txb r =>
    rcases execTxb_next h with ⟨_, rfl⟩ | ⟨_, _, rfl⟩ | ⟨_, ha, _, hm, bs, hl, hi, hb, ht⟩
    · exact ⟨hr, hx, hq⟩
    · exact ⟨hr, hx, hq⟩
    · have hfifo : s.utxFifo = [] := by
        by_contra hne
        simp [hx.fifoOnlyInJob hne] at ha
      rw [hfifo] at hl ht
      rw [ht]
      exact ⟨hr, (TransmitOk.start s.tx hm).after_load rfl (by simpa using hl) (by simpa using hi)
        (by simpa using hb), hq⟩
  | arg b => cases h
  | txs =>
    obtain ⟨ha, _, bs, hl, hi, ht, hb⟩ := execTxs_next h
    rw [ht]
    exact ⟨hr, hx.after_load ha hl hi hb, hq⟩
  | lout =>
    obtain ⟨b, rest, hf, _⟩ := execLout_next h
    have hoff := hx.activeIffRxOff.1 (hx.fifoOnlyInJob (by simp [hf]))
    cases (execLout_of_rxOff hf hoff).symm.trans h
    rw [hf] at hx
    exact ⟨hr, hx.tail, hq⟩
  | txd =>
    obtain ⟨_, _, hf, rfl⟩ := execTxd_next h
    refine ⟨hr, ?_, hq⟩
    simp only [hf]
    exact .of_noJob rfl rfl
  | pop =>
    rcases execPop_next h with ⟨_, rfl⟩ | ⟨f, rest, hf, rfl⟩
    · exact ⟨hr, hx, hq⟩
    · rw [hf] at hq
      exact ⟨hr, hx, hq.tail⟩
  | stat sel =>
    cases h
    exact ⟨hr, hx, hq⟩
  | rst =>
    cases h
    exact ⟨.of_idle rfl rfl, .of_noJob rfl rfl, .nil _⟩

theorem exec_inv {i : Instr} {s t : State} (hs : Inv s) (h : exec i s = .next t) : Inv t := by
  obtain ⟨_, _, hw, _, _⟩ := (configOk_iff s.cfg).1 hs.config
  exact (exec_sidesOk (Nat.pos_of_ne_zero hw) hs.sidesOk h).inv (by rw [exec_cfg h, hs.config])
    (exec_held hs.held h) (exec_wf hs.rxCanonical hs.txCanonical h)

theorem step_inv {s t : State} (hs : Inv s) (h : step s = .next t) : Inv t := by
  obtain ⟨i, rest, _, _, he⟩ := step_next h
  exact exec_inv (hs.withTrace rest) he

theorem resetWith_inv {c : Config} (h : configOk c = true) : Inv (State.resetWith c) :=
  SidesOk.inv ⟨.of_idle rfl rfl, .of_noJob rfl rfl, .nil c⟩ h rfl ⟨rfl, rfl⟩

/-- What every step keeps holds after any number of steps. -/
theorem run_preserves {P : State → Prop} (hstep : ∀ s t, P s → step s = .next t → P t) :
    ∀ {k : Nat} {s t : State}, P s → Sys2Proof.core.run k s = .next t → P t := by
  intro k
  induction k with
  | zero =>
    intro s t hs h
    cases h
    exact hs
  | succ k ih =>
    intro s t hs h
    simp only [Host.Core.run] at h
    split at h
    · rename_i u hu
      exact ih (hstep s u hs hu) h
    · cases h
    · cases h

/-! ### The checksum of the frame being received -/

/-- A byte written after the bytes of p, and p before it. -/
theorem Memory.read_write_append {m : Memory} {p : List Byte} (b : Byte)
    (h : ∀ k : Nat, ∀ d, p[k]? = some d → m.read k = d) :
    ∀ k : Nat, ∀ d, (p ++ [b])[k]? = some d → (m.write p.length b).read k = d := by
  intro k d hk
  rcases Nat.lt_trichotomy k p.length with hlt | rfl | hgt
  · rw [List.getElem?_append_left hlt] at hk
    rw [Memory.read_write_ne _ _ (by omega)]
    exact h k d hk
  · rw [Memory.read_write_same]
    simpa using hk
  · rw [List.getElem?_eq_none (by simp; omega)] at hk
    cases hk

/-- `rx_xor` covers the header and the n payload bytes in `rx_buf` (spec/10_state.md R25). -/
def TracksPayload (r : RxRegs) (n : Nat) : Prop :=
  ∃ p : List Byte, p.length = n ∧ (∀ k : Nat, ∀ b, p[k]? = some b → Memory.read r.buf k = b) ∧
    r.acc = xor8 ([r.addr, r.mtype, r.len] ++ p)

theorem xorTracksFrame_of_idle {r : RxRegs} (h : r.state = .idle) : XorTracksFrame r := by
  simp [XorTracksFrame, h]

theorem xorTracksFrame_awPayload {r : RxRegs} (h : r.state = .awPayload) :
    XorTracksFrame r ↔ TracksPayload r (r.len.toNat - r.rem.toNat) := by
  simp only [XorTracksFrame, TracksPayload, RxRegs.received, h]

theorem xorTracksFrame_awCksum {r : RxRegs} (h : r.state = .awCksum) :
    XorTracksFrame r ↔ TracksPayload r r.len.toNat := by
  simp only [XorTracksFrame, TracksPayload, RxRegs.received, h]

/-- A payload byte goes into the buffer after the bytes before it and into the sum (spec/40_codec.md R91). -/
theorem TracksPayload.push {r : RxRegs} {n : Nat} (b : Byte) (x : Byte) (st : RxState) (h : TracksPayload r n) :
    TracksPayload { r with buf := Memory.write r.buf n b, acc := r.acc ^^^ b, rem := x, state := st } (n + 1) := by
  obtain ⟨p, rfl, hp, hacc⟩ := h
  exact ⟨p ++ [b], by simp, Memory.read_write_append b hp, by simp [hacc, xor8_append, BitVec.xor_assoc]⟩

/-- A decoded byte keeps the sum. -/
theorem decodeStep_xorTracksFrame {c : Config} {r r' : RxRegs} {b : Byte} {o : Decoded} (hr : RegsOk c r)
    (hx : XorTracksFrame r) (hd : decodeStep c r b = .ok (r', o)) :
    XorTracksFrame (exitToIdle r' o) := by
  rcases decodeStep_exit hd with ⟨hs, _⟩ | ⟨_, he⟩ | ⟨hs, he⟩ | ⟨hs, _, _, he⟩ | ⟨hs, _, he⟩ | ⟨hs, _, he⟩
  · exact xorTracksFrame_of_idle hs
  · rw [he]
    simp [XorTracksFrame]
  · rw [he]
    simp only [XorTracksFrame, hs] at hx ⊢
    simp [hx]
  · rw [he]
    simp only [XorTracksFrame, hs] at hx
    refine (xorTracksFrame_awPayload rfl).2 ⟨[], by simp, by simp, ?_⟩
    simp [hx, BitVec.xor_assoc]
  · obtain ⟨h1, hrl, _⟩ := hr.payloadState hs
    have hx' := ((xorTracksFrame_awPayload hs).1 hx).push b (r.rem - 1) .awPayload
    rw [he, xorTracksFrame_awPayload rfl, toNat_sub_byte hrl]
    simp only [toNat_pred_byte h1]
    rwa [show r.len.toNat - r.rem.toNat + 1 = r.len.toNat - (r.rem.toNat - 1) by omega] at hx'
  · obtain ⟨h1, hrl, _⟩ := hr.payloadState hs
    have hx' := ((xorTracksFrame_awPayload hs).1 hx).push b 0 .awCksum
    rw [he, xorTracksFrame_awCksum rfl, toNat_sub_byte hrl]
    rwa [show r.len.toNat - r.rem.toNat + 1 = r.len.toNat by omega] at hx'

end Sys2Proof.Machine
end

section
/-! CERTIFICATES. The invariant at reset, at every step and in every reachable state, and the running checksum
(spec/10_state.md R25, R41). -/

namespace Sys2Proof.Machine

/-- Settles O55: in the power-on state no frame is being received, no job is in flight and the queue is empty. -/
theorem invariantHoldsAtReset : Obligations.InvariantHoldsAtReset := fun _ h => resetWith_inv h

/-- Settles O56: the fetch writes only the trace, which the invariant does not read, and each event keeps the receive
side, the transmit side and the queue. -/
theorem everyStepKeepsTheInvariant : Obligations.EveryStepKeepsTheInvariant := fun _ _ hs h => step_inv hs h

/-- Settles O58, by induction on the number of steps with the whole invariant. -/
theorem everyReachableStateMeetsR41 : Obligations.EveryReachableStateMeetsR41 := fun _ words _ _ hc h =>
  (run_preserves (fun _ _ => step_inv) ((resetWith_inv hc).withTrace words) h).r41

/-- Settles O32: an event leaves the receive registers alone, returns them to IDLE, or runs one decode step. -/
theorem xorTracksTheFrame : Obligations.XorTracksTheFrame := by
  intro i s t hs hx h
  rcases exec_rx h with he | he | ⟨b, r, o, hd, he⟩
  · rwa [he]
  · exact xorTracksFrame_of_idle he
  · rw [he]
    exact decodeStep_xorTracksFrame hs.sidesOk.receive.toRegsOk hx hd

end Sys2Proof.Machine
end

section
/-! SUPPORT. Which events complete: no read or write of a payload buffer leaves its indices (spec/20_memory.md R53, R54)
where the receive registers and the length of the job are in their bounds. -/

namespace Sys2Proof.Machine

/-! ### The receive buffer (R53) -/

theorem memReadRange_zero_total (which : Buffer) {n k : Nat} (m : Memory) (h : k ≤ n) :
    ∃ bs, memReadRange which n m 0 k = .ok bs :=
  ⟨_, memReadRange_total (by rwa [Nat.zero_add])⟩

/-- A decode step completes where the registers meet R41 items 4 and 5: the payload byte goes to an index below
`rx_len`, and the finished frame is read up to `rx_len`. -/
theorem decodeStep_total {c : Config} {r : RxRegs} (b : Byte) (h : RegsOk c r) :
    ∃ r' o, decodeStep c r b = .ok (r', o) := by
  cases hs : r.state with
  | idle => exact ⟨_, _, decodeStep_idle c b hs⟩
  | awType => exact ⟨_, _, decodeStep_awType c b hs⟩
  | awLen => exact ⟨_, _, by simp only [decodeStep, hs]; rfl⟩
  | awPayload =>
    obtain ⟨h1, hrl, hlm⟩ := h.payloadState hs
    have hi : (r.len - r.rem).toNat < c.maxPayload := by
      rw [toNat_sub_byte hrl]
      omega
    exact ⟨_, _, decodeStep_awPayload c b hs hi⟩
  | awCksum =>
    obtain ⟨_, hlm⟩ := h.cksumState hs
    by_cases hb : b = r.acc
    · obtain ⟨p, hp⟩ := memReadRange_zero_total .rxBuf r.buf hlm
      exact ⟨_, _, by simp only [decodeStep, hs, decodeChecksum, if_pos hb, hp]; rfl⟩
    · exact ⟨_, _, decodeStep_awCksum_bad c hs hb⟩
  | frameReady | error | reserved => exact ⟨_, _, by simp only [decodeStep, hs]; rfl⟩

/-- A received byte completes, whether reception is on or off. -/
theorem rxByte_total {s : State} (b : Byte) (h : RegsOk s.cfg s.rx) : ∃ t, rxByte b s = .next t := by
  by_cases hoff : s.cfg.cfgEnable = false ∨ s.rxEn = false
  · exact ⟨s, rxByte_of_off hoff⟩
  · obtain ⟨hc, hr⟩ := not_or.1 hoff
    obtain ⟨r, o, hd⟩ := decodeStep_total b h
    exact ⟨_, rxByte_of_on (by simpa using hc) (by simpa using hr) hd⟩

theorem execLout_total {s : State} (hf : s.utxFifo ≠ []) (h : RegsOk s.cfg s.rx) : ∃ t, execLout s = .next t := by
  obtain ⟨b, rest, hf⟩ := List.exists_cons_of_ne_nil hf
  obtain ⟨t, ht⟩ := rxByte_total (s := { s with utxFifo := rest, busOut := s.busOut ++ [b] }) b h
  simp only [execLout, hf, ht]
  split
  · exact ⟨t, rfl⟩
  · exact ⟨_, rfl⟩

/-! ### The transmit buffer (R54) -/

/-- Every `tx_byte` is readable where `tx_len` is within `MAX_PAYLOAD`. -/
theorem txByte_total {c : Config} {j : TxJob} (h : j.len.toNat ≤ c.maxPayload) (i : Nat) :
    ∃ b, txByte c j i = .ok b := by
  obtain ⟨p, hp⟩ := memReadRange_zero_total .txBuf j.buf h
  simp only [txByte, hp]
  split
  · exact ⟨_, rfl⟩
  split
  · exact ⟨_, rfl⟩
  split
  · exact ⟨_, rfl⟩
  split
  · exact ⟨_, memRead_ok.2 ⟨by omega, rfl⟩⟩
  · exact ⟨_, rfl⟩

theorem load_total_of_len {s : State} (h : s.tx.len.toNat ≤ s.cfg.maxPayload) : ∃ t, load s = .ok t :=
  load_total fun k _ _ => txByte_total h k

/-- TX_BEGIN completes in every state: the misuse check rejects a response above `MAX_PAYLOAD` before the job starts
(spec/42_transmit.md R119). -/
theorem execTxb_total (r : Response) (s : State) : ∃ t, execTxb r s = .next t := by
  unfold execTxb
  split
  · exact ⟨_, rfl⟩
  split
  · exact ⟨_, rfl⟩
  · rename_i hm
    have hlen : (responseLen r).toNat ≤ s.cfg.maxPayload := by
      simp only [txBeginMisuse, Bool.or_eq_true, decide_eq_true_eq, not_or, Nat.not_lt] at hm
      exact hm.2
    obtain ⟨t, ht⟩ := load_total_of_len (s := enableTransmit { s with tx := startJob s.cfg r s.tx, rxEn := false })
      (by simpa using hlen)
    exact ⟨_, by simp only [txAccept, ht]; rfl⟩

theorem execTxs_total {s : State} (he : txSpaceEnabled s = true) (h : s.tx.len.toNat ≤ s.cfg.maxPayload) :
    ∃ t, execTxs s = .next t := by
  obtain ⟨t, ht⟩ := load_total_of_len h
  exact ⟨t, by simp only [execTxs, if_pos he, ht]⟩

/-! ### The events that reach no buffer -/

theorem execTick_total (s : State) : ∃ t, execTick s = .next t := by
  unfold execTick
  split
  · exact ⟨_, rfl⟩
  split
  · split
    · exact ⟨_, rfl⟩
    · exact ⟨_, rfl⟩
  · exact ⟨_, rfl⟩

theorem execTxd_total {s : State} (he : txDoneEnabled s = true) : ∃ t, execTxd s = .next t :=
  ⟨_, if_pos he⟩

theorem execPop_total (s : State) : ∃ t, execPop s = .next t := by
  unfold execPop
  split
  · exact ⟨_, rfl⟩
  · exact ⟨_, rfl⟩

/-! ### No fault -/

/-- An event completes or is refused; where it is refused, it is one that is not enabled. -/
theorem exec_next_or_refused {s : State} (i : Instr) (h : SidesOk s) :
    (∃ t, exec i s = .next t) ∨ (enabled s i = false ∧ ∃ r, exec i s = .refused r) := by
  have hregs := h.receive.toRegsOk
  cases i with
  | rxb b => exact .inl (rxByte_total b hregs)
  | tick => exact .inl (execTick_total s)
  | txb r => exact .inl (execTxb_total r s)
  | arg b => exact .inr ⟨rfl, _, rfl⟩
  | txs =>
    by_cases he : txSpaceEnabled s = true
    · have hactive : s.tx.active = true := (Bool.and_eq_true_iff.1 he).1
      exact .inl (execTxs_total he (h.transmit.job hactive).len)
    · exact .inr ⟨Bool.eq_false_of_not_eq_true he, _, if_neg he⟩
  | lout =>
    by_cases hf : s.utxFifo = []
    · exact .inr ⟨by simp [enabled, hf], .lineOutNotEnabled, by simp only [exec, execLout, hf]⟩
    · exact .inl (execLout_total hf hregs)
  | txd =>
    by_cases he : txDoneEnabled s = true
    · exact .inl (execTxd_total he)
    · exact .inr ⟨Bool.eq_false_of_not_eq_true he, _, if_neg he⟩
  | pop => exact .inl (execPop_total s)
  | stat sel => exact .inl ⟨_, rfl⟩
  | rst => exact .inl ⟨_, rfl⟩

theorem exec_ne_fault {s : State} (i : Instr) (f : Fault) (h : SidesOk s) : exec i s ≠ .fault f := by
  rcases exec_next_or_refused i h with ⟨t, ht⟩ | ⟨_, r, hr⟩
  · rw [ht]
    exact nofun
  · rw [hr]
    exact nofun

/-! ### The request queue (R57) -/

/-- A received byte leaves the queue, or appends one frame at its tail where it has room. -/
theorem rxByte_rq {b : Byte} {s t : State} (h : rxByte b s = .next t) :
    t.rq = s.rq ∨ ∃ f, t.rq = s.rq ++ [f] ∧ s.rq.length < s.cfg.reqQueueDepth := by
  rcases rxByte_next h with ⟨_, rfl⟩ | ⟨_, _, r, o, _, rfl⟩
  · exact .inl rfl
  · rw [safetyNetAfterByte_rq, rxExit_rq]
    cases o with
    | ready f =>
      simp only
      split
      · rename_i hf
        exact .inr ⟨f, rfl, hf.2⟩
      · exact .inl rfl
    | _ => exact .inl rfl

end Sys2Proof.Machine
end

section
/-! CERTIFICATES. The payload buffers and the request queue (spec/20_memory.md R53, R54, R57). -/

namespace Sys2Proof.Machine

/-- Settles O57: the fetch never faults, and in a state of the invariant an event completes or is refused. -/
theorem noStepFaults : Obligations.NoStepFaults := by
  intro s f hs
  cases hd : decode s.trace with
  | error e =>
    rw [step_of_decode_error hs.config hd]
    exact nofun
  | ok item =>
    obtain ⟨i, rest⟩ := item
    rw [step_of_decode_ok hs.config hd]
    exact exec_ne_fault i f (hs.withTrace rest).sidesOk

/-- Settles O46, event by event: a received byte (RXB, the echo of LOUT) appends at most one frame, POP takes the head,
and every other event leaves the queue. -/
theorem requestQueueIsFifo : Obligations.RequestQueueIsFifo := by
  intro i s t h hrst
  cases i with
  | rxb b =>
    rcases rxByte_rq h with hq | ⟨f, hq, hroom⟩
    · exact .inl hq
    · exact .inr (.inl ⟨f, hq, hroom, .inr ⟨b, rfl⟩⟩)
  | tick => rcases execTick_next h with ⟨_, rfl⟩ | ⟨_, _, _, rfl⟩ | ⟨_, _, _, rfl⟩ <;> exact .inl rfl
  | txb r =>
    rcases execTxb_next h with ⟨_, rfl⟩ | ⟨_, _, rfl⟩ | ⟨_, _, _, _, bs, _, _, _, ht⟩
    · exact .inl rfl
    · exact .inl rfl
    · exact .inl (by rw [ht])
  | arg b => cases h
  | txs =>
    obtain ⟨_, _, bs, _, _, ht, _⟩ := execTxs_next h
    exact .inl (by rw [ht])
  | lout =>
    obtain ⟨b, rest, _, ⟨_, hecho⟩ | ⟨_, rfl⟩⟩ := execLout_next h
    · rcases rxByte_rq hecho with hq | ⟨f, hq, hroom⟩
      · exact .inl hq
      · exact .inr (.inl ⟨f, hq, hroom, .inl rfl⟩)
    · exact .inl rfl
  | txd =>
    obtain ⟨_, _, _, rfl⟩ := execTxd_next h
    exact .inl rfl
  | pop =>
    rcases execPop_next h with ⟨_, rfl⟩ | ⟨f, rest, hq, rfl⟩
    · exact .inl rfl
    · exact .inr (.inr ⟨f, hq, rfl, rfl⟩)
  | stat sel =>
    cases h
    exact .inl rfl
  | rst => exact absurd rfl hrst

end Sys2Proof.Machine
end

section
/-! SUPPORT. The event encoding (spec/30_encoding.md R76 to R81): the decoder on the encoder's words, what it can have
answered, and the events that have no step. -/

namespace Sys2Proof

/-! ### The decoder on the encoder's words -/

theorem Response.wf_data_iff (mtype : Byte) {n : Byte} {payload : List Byte} :
    (Response.data mtype n payload).wf = true ↔ n ≠ 0#8 ∧ payload.length = n.toNat := by
  have hn : n ≠ 0#8 ↔ 1 ≤ n.toNat := by
    rw [ne_eq, ← BitVec.toNat_inj, BitVec.toNat_ofNat]
    omega
  simp only [Response.wf, Bool.and_eq_true, decide_eq_true_eq, hn]

theorem decodeTxBegin_data {mtype n : Byte} {payload : List Byte} (rest : List EventWord)
    (h : (Response.data mtype n payload).wf = true) :
    decodeTxBegin n ((mtype :: payload).map (eventWord 0x4#4) ++ rest) = .ok (.txb (.data mtype n payload), rest) := by
  obtain ⟨hn, hp⟩ := (Response.wf_data_iff mtype).1 h
  have hargs := takeArgs_map (mtype :: payload) rest
  rw [List.length_cons, hp] at hargs
  simp only [decodeTxBegin, if_neg hn, hargs]

/-- The words of a well-formed event decode to it, and the words after its item are left. -/
theorem decode_encode {i : Instr} (h : i.wf = true) (rest : List EventWord) :
    decode (encode i ++ rest) = .ok (i, rest) := by
  cases i with
  | txb r =>
    cases r with
    | empty => exact decode_eventWord _ _ _ rfl
    | data mtype n payload => exact (decode_eventWord 0x3#4 n _ rfl).trans (decodeTxBegin_data rest h)
  | stat sel =>
    have hkind : decodeKind 0x9 (selectorCode sel) rest = .ok (.stat sel, rest) := by
      simp only [decodeKind, decodeSelector_code]
    exact (decode_eventWord 0x9#4 _ rest rfl).trans hkind
  | _ => exact decode_eventWord _ _ _ rfl

theorem eventWord_inj {j k : BitVec 4} {a b : Byte} : eventWord j a = eventWord k b ↔ j = k ∧ a = b := by
  refine ⟨fun h => ⟨?_, ?_⟩, fun ⟨hk, hb⟩ => by rw [hk, hb]⟩
  · simpa using congrArg kindOf h
  · simpa using congrArg opOf h

/-- The header alone tells the item's length (spec/30_encoding.md R78). -/
theorem length_encode_txb {r : Response} (h : r.wf = true) :
    (encode (.txb r)).length = if Machine.responseLen r = 0#8 then 1 else (Machine.responseLen r).toNat + 2 := by
  cases r with
  | empty => rfl
  | data mtype n payload =>
    obtain ⟨hn, hp⟩ := (Response.wf_data_iff mtype).1 h
    simp [encode, Machine.responseLen, hn, hp]

/-! ### What the decoder can have answered -/

theorem decodePlain_ok {i j : Instr} {op : Byte} {ws rest : List EventWord}
    (h : decodePlain i op ws = .ok (j, rest)) : op = 0#8 ∧ j = i ∧ rest = ws := by
  unfold decodePlain at h
  split at h
  · rename_i hop
    cases h
    exact ⟨hop, rfl, rfl⟩
  · cases h

theorem decodeTxBegin_ok {n : Byte} {ws rest : List EventWord} {i : Instr}
    (h : decodeTxBegin n ws = .ok (i, rest)) : i.wf = true ∧ eventWord 0x3#4 n :: ws = encode i ++ rest := by
  unfold decodeTxBegin at h
  split at h
  · rename_i hn
    cases h
    exact ⟨rfl, by rw [hn]; rfl⟩
  · rename_i hn
    split at h
    · rename_i mtype payload tail hargs
      cases h
      obtain ⟨hlen, rfl⟩ := takeArgs_some hargs
      exact ⟨(Response.wf_data_iff mtype).2 ⟨hn, Nat.succ.inj hlen⟩, rfl⟩
    · cases h
    · cases h

theorem decodeKind_ok {kind : Nat} {op : Byte} {ws rest : List EventWord} {i : Instr}
    (h : decodeKind kind op ws = .ok (i, rest)) :
    i.wf = true ∧ eventWord (BitVec.ofNat 4 kind) op :: ws = encode i ++ rest := by
  unfold decodeKind at h
  split at h
  case h_1 | h_4 =>
    cases h
    exact ⟨rfl, rfl⟩
  case h_3 => exact decodeTxBegin_ok h
  case h_9 =>
    split at h
    · rename_i sel hsel
      cases h
      exact ⟨rfl, by rw [decodeSelector_some hsel]; rfl⟩
    · cases h
  case h_11 => cases h
  all_goals
    obtain ⟨rfl, rfl, rfl⟩ := decodePlain_ok h
    exact ⟨rfl, rfl⟩

/-- Whatever decodes is a well-formed event, and the words taken are exactly the encoder's. -/
theorem decode_ok {ws rest : List EventWord} {i : Instr} (h : decode ws = .ok (i, rest)) :
    i.wf = true ∧ ws = encode i ++ rest := by
  unfold decode at h
  split at h
  · cases h
  · rename_i w ws
    split at h
    · cases h
    · split at h
      · cases h
      · rename_i hz
        have hw := eq_eventWord w (not_not.1 hz)
        have hitem := decodeKind_ok h
        rwa [BitVec.ofNat_toNat, BitVec.setWidth_eq, ← hw] at hitem

theorem selectorCode_le (sel : StatSel) : (selectorCode sel).toNat ≤ 5 := by cases sel <;> decide

/-- No event's item begins with a word that spec/30_encoding.md R79 reserves; with an ARG word, only a stray ARG. -/
theorem eq_arg_of_reserved_header {i : Instr} {w : EventWord} {ws rest : List EventWord}
    (h : w :: ws = encode i ++ rest)
    (hw : (kindOf w = 0x0#4 ∨ 0xB ≤ (kindOf w).toNat) ∨ zOf w ≠ 0#4 ∨
      (opOf w ≠ 0#8 ∧ kindOf w ∈ [0x2#4, 0x5#4, 0x6#4, 0x7#4, 0x8#4, 0xA#4]) ∨
      (kindOf w = 0x9#4 ∧ 5 < (opOf w).toNat) ∨ kindOf w = 0x4#4) : ∃ b, i = .arg b := by
  cases i with
  | arg b => exact ⟨b, rfl⟩
  | txb r =>
    cases r <;>
    · obtain ⟨rfl, -⟩ := List.cons.inj h
      simp at hw
  | stat sel =>
    obtain ⟨rfl, -⟩ := List.cons.inj h
    have := selectorCode_le sel
    simp [Nat.not_lt.2 this] at hw
  | _ =>
    obtain ⟨rfl, -⟩ := List.cons.inj h
    simp at hw

/-- An event whose item begins with the header of n ≥ 1 carries the argument words after it. -/
theorem eq_txb_of_header {i : Instr} {n : Byte} {ws rest : List EventWord} (hn : n ≠ 0#8)
    (h : eventWord 0x3#4 n :: ws = encode i ++ rest) :
    ∃ mtype payload, i = .txb (.data mtype n payload) ∧
      ws = (mtype :: payload).map (eventWord 0x4#4) ++ rest := by
  cases i with
  | txb r =>
    cases r with
    | empty => exact absurd (eventWord_inj.1 (List.cons.inj h).1).2 hn
    | data mtype len payload =>
      obtain ⟨hhead, htail⟩ := List.cons.inj h
      obtain ⟨-, rfl⟩ := eventWord_inj.1 hhead
      exact ⟨mtype, payload, rfl, htail⟩
  | _ => exact absurd (eventWord_inj.1 (List.cons.inj h).1).1 (by decide)

theorem decode_stat_reserved {op : Byte} (rest : List EventWord) (h : 5 < op.toNat) :
    decode (eventWord 0x9#4 op :: rest) = .error .reservedSelector := by
  have hnone : decodeSelector op = none := by
    cases hsel : decodeSelector op with
    | none => rfl
    | some sel =>
      rw [decodeSelector_some hsel] at h
      exact absurd (selectorCode_le sel) (Nat.not_le.2 h)
  have hkind : decodeKind 0x9 op rest = .error .reservedSelector := by simp only [decodeKind, hnone]
  exact (decode_eventWord 0x9#4 op rest rfl).trans hkind

end Sys2Proof

namespace Sys2Proof.Machine

/-! ### Events with no step -/

theorem step_of_trace_encode {s : State} {i : Instr} {rest : List EventWord} (hc : configOk s.cfg = true)
    (hi : i.wf = true) (ht : s.trace = encode i ++ rest) : step s = exec i { s with trace := rest } :=
  step_of_decode_ok hc (by rw [ht, decode_encode hi])

/-- A trace that begins with no item of an event, ARG being none (spec/30_encoding.md R79), has no step. -/
theorem step_refused_of_no_item {s : State}
    (h : ∀ (i : Instr) (rest : List EventWord), i.wf = true → s.trace = encode i ++ rest → ∃ b, i = .arg b) :
    ∃ r, step s = .refused r := by
  cases hc : configOk s.cfg with
  | false => exact ⟨_, step_of_configOk_false hc⟩
  | true =>
    cases hd : decode s.trace with
    | error e => exact ⟨_, step_of_decode_error hc hd⟩
    | ok item =>
      obtain ⟨i, rest⟩ := item
      obtain ⟨hwf, ht⟩ := decode_ok hd
      obtain ⟨b, rfl⟩ := h i rest hwf ht
      exact ⟨.strayArg, step_of_decode_ok hc hd⟩

/-- TXS, LOUT, TXD and ARG are the events that can be not enabled; each is refused where it is. -/
theorem exec_refused_of_not_enabled {i : Instr} {s : State} (h : enabled s i = false) :
    ∃ r, exec i s = .refused r := by
  cases i with
  | txs => exact ⟨_, if_neg (ne_true_of_eq_false h)⟩
  | txd => exact ⟨_, if_neg (ne_true_of_eq_false h)⟩
  | lout =>
    have hf : s.utxFifo = [] := by simpa [enabled] using h
    exact ⟨.lineOutNotEnabled, by simp only [exec, execLout, hf]⟩
  | arg b => exact ⟨_, rfl⟩
  | _ => cases h

/-- A response longer than `MAX_PAYLOAD` is rejected whether the engine is disabled, busy or free
(spec/42_transmit.md R119). -/
theorem execTxb_rejected_of_too_long {r : Response} {s : State} (h : s.cfg.maxPayload < (responseLen r).toNat) :
    ∃ t, execTxb r s = .next t ∧ t.outputs = s.outputs ++ [.txbStatus .rejected] ∧ t.tx = s.tx := by
  obtain ⟨t, ht⟩ := execTxb_total r s
  refine ⟨t, ht, ?_⟩
  rcases execTxb_next ht with ⟨_, rfl⟩ | ⟨_, _, rfl⟩ | ⟨_, _, _, hfits, _⟩
  · exact ⟨rfl, rfl⟩
  · exact ⟨rfl, rfl⟩
  · exact absurd hfits (Nat.not_le.2 h)

end Sys2Proof.Machine
end

section
/-! CERTIFICATES. The event encoding and its statements (spec/30_encoding.md R78 to R81). -/

namespace Sys2Proof.Machine

/-- Settles O4: the words of an item decode to its one event, and TX_BEGIN rejects a response too long. -/
theorem txBeginItemTakesItsArguments : Obligations.TxBeginItemTakesItsArguments := by
  refine ⟨fun rest => decode_encode (i := .txb .empty) rfl rest, fun n mtype payload rest hn hp => ?_,
    fun r hr => length_encode_txb hr, fun s r rest hc hr ht => step_of_trace_encode (i := .txb r) hc hr ht,
    fun s b rest hc ht => step_of_trace_encode (i := .arg b) hc rfl ht, fun s r rest hc hr ht hlong => ?_⟩
  · exact decode_encode (i := .txb (.data mtype n payload)) ((Response.wf_data_iff mtype).2 ⟨hn, hp⟩) rest
  · rw [step_of_trace_encode (i := .txb r) hc hr ht]
    exact execTxb_rejected_of_too_long hlong

/-- Settles O5: a decoded item is the encoder's words of a well-formed event, and no event's header is one of the
reserved words. -/
theorem reservedWordsHaveNoStep : Obligations.ReservedWordsHaveNoStep := by
  refine ⟨fun s w rest ht hw => step_refused_of_no_item fun i rest' _ hi => ?_,
    fun s n rest ht hn hcut => step_refused_of_no_item fun i rest' hwf hi => ?_,
    fun rest => ⟨decode_encode (i := .txs) rfl rest, decode_encode (i := .lout) rfl rest,
      decode_encode (i := .txd) rfl rest⟩,
    fun s i _ h => exec_refused_of_not_enabled h⟩
  · exact eq_arg_of_reserved_header (ht.symm.trans hi) hw
  · obtain ⟨mtype, payload, rfl, hargs⟩ := eq_txb_of_header hn (ht.symm.trans hi)
    obtain ⟨-, hlen⟩ := (Response.wf_data_iff mtype).1 hwf
    exact absurd ⟨mtype :: payload, rest', congrArg (· + 1) hlen, hargs⟩ hcut

/-- Settles O8: an event keeps `rx_state`, sets it to IDLE, or leaves a decode step's state, which is a held one. -/
theorem receiveStateCodes : Obligations.ReceiveStateCodes := by
  refine ⟨rfl, rfl, rfl, rfl, rfl, rfl, rfl, rfl, fun x => by cases x <;> decide, fun i s t hs h ht => ?_⟩
  rcases exec_rx h with he | he | ⟨b, r, o, hd, he⟩
  · exact hs (he ▸ ht)
  · exact absurd (he.symm.trans ht) (by decide)
  · have hheld := decodeStep_held hd
    rw [← he, ht] at hheld
    exact absurd hheld (by decide)

/-- Settles O45: a STAT word of a selector's code decodes to that selector, and STAT only emits. -/
theorem statReturnsACounter : Obligations.StatReturnsACounter :=
  ⟨fun rest =>
    have hsel (sel : StatSel) : decode (eventWord 0x9#4 (selectorCode sel) :: rest) = .ok (.stat sel, rest) :=
      decode_encode (i := .stat sel) rfl rest
    ⟨hsel .frames, hsel .cksumErr, hsel .desync, hsel .lenErr, hsel .fault, hsel .qovf,
      fun _ hop => decode_stat_reserved rest hop⟩,
    fun _ => ⟨rfl, rfl, rfl, rfl, rfl, rfl⟩⟩

/-- Settles O51: ARG is no event of its own, and its one meaning is the refusal. -/
theorem strayArgumentHasNoStep : Obligations.StrayArgumentHasNoStep := fun _ _ => rfl

end Sys2Proof.Machine
end

section
/-! SUPPORT. The frame codec (spec/40_codec.md): the checksum's laws, the two encoders, byte streams that make a frame,
and what RX_BYTE does with one decoded byte and with a stream of them. -/

namespace Sys2Proof.Machine

/-! ### The checksum (R84) -/

theorem xor8_concat (s : List Byte) (b : Byte) : xor8 (s ++ [b]) = xor8 s ^^^ b := List.foldl_concat ..

/-- A byte is the checksum of the bytes before it exactly where the sum over all of them is 0. -/
theorem xor8_concat_eq_zero_iff (s : List Byte) (b : Byte) : xor8 (s ++ [b]) = 0#8 ↔ b = xor8 s := by
  rw [xor8_concat, BitVec.xor_eq_zero_iff, eq_comm]

theorem xor8_perm {s t : List Byte} (h : s.Perm t) : xor8 s = xor8 t :=
  h.foldl_eq' (fun x _ y _ z => by rw [BitVec.xor_assoc, BitVec.xor_comm x y, BitVec.xor_assoc]) 0#8

/-- Changing one byte by m changes the sum by m. -/
theorem xor8_set_xor {l : List Byte} {j : Nat} {b : Byte} (m : Byte) (h : l[j]? = some b) :
    xor8 (l.set j (b ^^^ m)) = xor8 l ^^^ m := by
  obtain ⟨hj, rfl⟩ := List.getElem?_eq_some_iff.1 h
  obtain ⟨s, t, hl, _, hset⟩ := List.exists_of_set (a' := l[j] ^^^ m) hj
  calc xor8 (l.set j (l[j] ^^^ m))
      = xor8 s ^^^ (l[j] ^^^ m ^^^ xor8 t) := by rw [hset, xor8_append, xor8_cons]
    _ = xor8 s ^^^ (l[j] ^^^ xor8 t) ^^^ m := by ac_rfl
    _ = xor8 l ^^^ m := by rw [← xor8_cons, ← xor8_append, ← hl]

theorem twoPow_byte_ne_zero {k : Nat} (h : k < 8) : BitVec.twoPow 8 k ≠ 0#8 := by
  intro h0
  have hk := BitVec.toNat_twoPow_of_lt h
  rw [h0] at hk
  exact absurd hk.symm (Nat.two_pow_pos k).ne'

theorem toNat_ofNat_byte {n : Nat} (h : n ≤ 255) : (BitVec.ofNat 8 n).toNat = n := by
  rw [BitVec.toNat_ofNat, Nat.mod_eq_of_lt (by omega)]

theorem ne_zero_of_lt_toNat {n : Byte} {k : Nat} (h : k < n.toNat) : n ≠ 0#8 := by
  rintro rfl
  exact absurd h (Nat.not_lt_zero k)

/-- The length byte of a payload within `MAX_PAYLOAD` holds its length. -/
theorem toNat_payloadLength {c : Config} {p : List Byte} (hc : configOk c = true) (hp : p.length ≤ c.maxPayload) :
    (BitVec.ofNat 8 p.length).toNat = p.length := by
  obtain ⟨_, ⟨_, hmax⟩, _⟩ := (configOk_iff c).1 hc
  exact toNat_ofNat_byte (Nat.le_trans hp hmax)

/-! ### The slave→master encoder (R86, R96 to R98) -/

theorem encodeS2M_data (c : Config) (mtype : Byte) {n : Byte} (p : List Byte) (hn : n ≠ 0#8) :
    encodeS2M c (.data mtype n p) = [n, mtype] ++ p ++ [cksS2M c mtype n p] := if_neg hn

theorem cksS2M_xor {c : Config} (mtype n : Byte) (p : List Byte) (h : c.txCksumPolicy = .xor) :
    cksS2M c mtype n p = xor8 ([n, mtype] ++ p) := by simp only [cksS2M, h]

theorem cksS2M_fixed {c : Config} {sentinel : Byte} (mtype n : Byte) (p : List Byte)
    (h : c.txCksumPolicy = .fixed sentinel) : cksS2M c mtype n p = sentinel := by simp only [cksS2M, h]

/-- `tx_byte` reads the encoding of the held response. -/
theorem txByte_of_holdsResponse {s : State} {r : Response} (h : HoldsResponse s r) {i : Nat} {b : Byte}
    (hb : (encodeS2M s.cfg r)[i]? = some b) : txByte s.cfg s.tx i = .ok b := by
  obtain ⟨hwf, hmax, hlen, _, hregs⟩ := h
  cases r with
  | empty =>
    obtain rfl := List.mem_singleton.1 (List.mem_of_getElem? hb)
    exact if_pos hlen
  | data mtype n p =>
    obtain ⟨hn, hp⟩ := (Response.wf_data_iff mtype).1 hwf
    obtain ⟨hmtype, hbuf⟩ := hregs
    exact txByte_data hn hp hmax hlen hmtype hbuf hb

/-! ### The master→slave encoder and `mframe` (R99, spec/30_encoding.md R83) -/

theorem length_encodeM2S_of_ne (a t : Byte) {p : List Byte} (hp : p ≠ []) :
    (encodeM2S a t p).length = p.length + 4 := by
  simp [encodeM2S_of_ne a t hp]

/-- The lines that give bytes assemble to one RXB word for each. -/
theorem linesWords_rx (bs : List Byte) :
    linesWords (bs.map fun b => .rx b.toNat) = some (bs.map (eventWord 0x1#4)) := by
  induction bs with
  | nil => rfl
  | cons b bs ih =>
    have hb : lineWords (.rx b.toNat) = some [eventWord 0x1#4 b] := by
      simp [lineWords, operandWord, byteOf, b.isLt]
    simp only [List.map_cons, linesWords, hb, ih, List.cons_append, List.nil_append]

theorem frameBody_toNat (a t : Byte) {p : List Byte} (h : p.length ≤ 255) :
    frameBody a.toNat t.toNat (p.map (·.toNat)) = ([a, t, BitVec.ofNat 8 p.length] ++ p).map (·.toNat) := by
  simp only [frameBody, List.length_map, List.map_append, List.map_cons, List.map_nil, toNat_ofNat_byte h]

theorem map_ofNat_map_toNat (bs : List Byte) : (bs.map (·.toNat)).map (BitVec.ofNat 8) = bs := by
  simp [Function.comp_def]

/-- `mframe` stands for one `rx` line per byte of the reference encoder. -/
theorem expand_mframe (a t : Byte) {p : List Byte} (h : p.length ≤ 255) :
    expand (.mframe a.toNat t.toNat (p.map (·.toNat))) = (encodeM2S a t p).map fun b => .rx b.toNat := by
  cases p with
  | nil => rfl
  | cons b bs =>
    have hbody := frameBody_toNat a t h
    rw [List.map_cons] at hbody
    rw [encodeM2S_of_ne a t (List.cons_ne_nil b bs), List.map_cons, expand, hbody, map_ofNat_map_toNat]
    simp only [List.map_append, List.map_map, List.map_cons, List.map_nil, Function.comp_def]

theorem assemble_singleton_mframe (a t : Nat) (payload : List Nat) :
    assemble [.mframe a t payload] = linesWords (expand (.mframe a t payload)) := by
  simp only [assemble]
  cases linesWords (expand (.mframe a t payload)) with
  | none => rfl
  | some ws => simp

/-! ### Byte streams from IDLE (R88 to R92) -/

theorem decodeBytes_address_type (c : Config) {r : RxRegs} (a t : Byte) (h : r.state = .idle) :
    decodeBytes c r [a, t] =
      .ok ({ r with addr := a, mtype := t, acc := a ^^^ t, state := .awLen }, [.pending, .pending]) :=
  decodeBytes_append (xs := [a]) (decodeBytes_one (decodeStep_idle c a h))
    (decodeBytes_one (decodeStep_awType c t rfl))

/-- A length byte that ends the frame, whatever the outcome. -/
theorem decodeBytes_lengthByte {c : Config} {r r' : RxRegs} {a t n : Byte} {o : Decoded} (h : r.state = .idle)
    (hd : decodeStep c { r with addr := a, mtype := t, acc := a ^^^ t, state := .awLen } n = .ok (r', o)) :
    decodeBytes c r [a, t, n] = .ok (exitToIdle r' o, [.pending, .pending, o]) :=
  decodeBytes_append (xs := [a, t]) (decodeBytes_address_type c a t h) (decodeBytes_one hd)

/-- The header of a frame and the n + 1 bytes after it: an outcome on the last byte and none before, which is
ERR_CHECKSUM where the sum over all bytes is not 0. -/
theorem decodeBytes_header_and_rest (c : Config) {r : RxRegs} (a t n : Byte) {q : List Byte} (h : r.state = .idle)
    (hq : q.length = n.toNat + 1) (hn : n ≠ 0#8) (hm : n.toNat ≤ c.maxPayload) :
    ∃ r' o, decodeBytes c r ([a, t, n] ++ q) = .ok (r', List.replicate (n.toNat + 3) .pending ++ [o]) ∧
      o ≠ .pending ∧ (xor8 ([a, t, n] ++ q) ≠ 0#8 → o = .errChecksum) := by
  obtain ⟨p, x, rfl⟩ : ∃ p x, q = p ++ [x] := by
    rcases List.eq_nil_or_concat' q with rfl | hcat
    · simp at hq
    · exact hcat
  have hp : p.length = n.toNat := by simpa using hq
  have hne : p ≠ [] := by
    rintro rfl
    exact hn (BitVec.eq_of_toNat_eq hp.symm)
  obtain ⟨r1, hbody, _, _, hlen, hacc, hstate, hbuf⟩ := decodeBytes_body c a t n p h hp hne hm
  rw [hp] at hbody
  rw [← List.append_assoc]
  by_cases hx : x = r1.acc
  · subst hx
    have hlast := decodeStep_awCksum_good c hstate (by rw [hp, hlen]) (by omega) hbuf
    exact ⟨_, _, decodeBytes_append hbody (decodeBytes_one hlast), nofun,
      fun h0 => absurd ((xor8_concat_eq_zero_iff _ _).2 hacc) h0⟩
  · exact ⟨_, _, decodeBytes_append hbody (decodeBytes_one (decodeStep_awCksum_bad c hstate hx)), nofun,
      fun _ => rfl⟩

/-- The header of a frame and fewer bytes than complete it: no outcome, in AW_PAYLOAD or AW_CKSUM. -/
theorem decodeBytes_header_and_part (c : Config) {r : RxRegs} (a t n : Byte) {q : List Byte} (h : r.state = .idle)
    (hq : q.length ≤ n.toNat) (hn : n ≠ 0#8) (hm : n.toNat ≤ c.maxPayload) :
    ∃ r', decodeBytes c r ([a, t, n] ++ q) = .ok (r', List.replicate (q.length + 3) .pending) ∧
      (r'.state = .awPayload ∨ r'.state = .awCksum) := by
  have hpos : 1 ≤ n.toNat := Nat.pos_of_ne_zero fun h0 => hn (BitVec.eq_of_toNat_eq h0)
  obtain ⟨r', hrest, _, _, _, _, hlast, hmore, _⟩ := decodeBytes_payload c q
    { r with addr := a, mtype := t, len := n, rem := n, acc := xor8 [a, t, n], state := .awPayload } rfl
    (Nat.le_refl _) hm hq hpos
  refine ⟨r', ?_, (Nat.lt_or_eq_of_le hq).imp hmore hlast⟩
  rw [decodeBytes_append (decodeBytes_header c a t n h hn hm) hrest, Nat.add_comm, List.replicate_add]
  rfl

/-- The reference encoder's bytes from IDLE (R100): no outcome before the last byte, and on it the frame. -/
theorem decode_encodeM2S {c : Config} {r : RxRegs} (a t : Byte) {p : List Byte} (hc : configOk c = true)
    (h : r.state = .idle) (hp : p.length ≤ c.maxPayload) :
    ∃ bs x r1 r2, encodeM2S a t p = bs ++ [x] ∧ decodeBytes c r bs = .ok (r1, List.replicate bs.length .pending) ∧
      decodeStep c r1 x = .ok (r2, .ready ⟨a, t, BitVec.ofNat 8 p.length, p⟩) := by
  by_cases hne : p = []
  · subst hne
    exact ⟨[a, t], 0#8, _, _, rfl, decodeBytes_address_type c a t h, decodeStep_awLen_zero c rfl⟩
  · have hlen := toNat_payloadLength hc hp
    obtain ⟨r1, hbody, haddr, hmtype, hn, hacc, hstate, hbuf⟩ :=
      decodeBytes_body c a t (BitVec.ofNat 8 p.length) p h hlen.symm hne (by rwa [hlen])
    have hlast := decodeStep_awCksum_good c hstate (by rw [hn, hlen]) hp hbuf
    rw [hacc, haddr, hmtype, hn] at hlast
    refine ⟨_, _, r1, _, encodeM2S_of_ne a t hne, ?_, hlast⟩
    rw [hbody]
    simp [List.replicate_succ]

/-! ### One changed byte (R101) -/

/-- A byte changed anywhere but at the length byte leaves the length byte and the number of bytes. -/
theorem header_set_of_ne_two (a t n v : Byte) (q : List Byte) {j : Nat} (hj : j ≠ 2) :
    ∃ a' t' q', ([a, t, n] ++ q).set j v = [a', t', n] ++ q' ∧ q'.length = q.length := by
  match j with
  | 0 => exact ⟨v, t, q, rfl, rfl⟩
  | 1 => exact ⟨a, v, q, rfl, rfl⟩
  | 2 => exact absurd rfl hj
  | j + 3 => exact ⟨a, t, q.set j v, rfl, List.length_set⟩

/-- The encoding with its length byte replaced. -/
theorem encodeM2S_set_length (a t n : Byte) {p : List Byte} (hp : p ≠ []) :
    ∃ x, (encodeM2S a t p).set 2 n = [a, t, n] ++ (p ++ [x]) := by
  rw [encodeM2S_of_ne a t hp]
  exact ⟨_, rfl⟩

/-! ### RX_BYTE on a decoded byte (spec/41_receive.md R103, R108, R109) -/

/-- Inside a frame a byte restarts the window under INTER_BYTE and leaves it under FROM_FIRST_BYTE. -/
theorem sntAfterByte_inFrame (c : Config) {prev now : RxState} (t : Snt) (hp : prev ≠ .idle) (hn : now ≠ .idle) :
    sntAfterByte c prev now t = if c.sntMode = .interByte then ⟨true, c.sntWindow⟩ else t := by
  unfold sntAfterByte
  rw [if_neg hn, if_neg hp]
  cases c.sntMode <;> rfl

/-- The first byte of a frame starts the window under both modes. -/
theorem sntAfterByte_first (c : Config) {now : RxState} (t : Snt) (hn : now ≠ .idle) :
    sntAfterByte c .idle now t = ⟨true, c.sntWindow⟩ := by
  unfold sntAfterByte
  rw [if_neg hn]
  cases c.sntMode <;> rfl

section
variable {s : State} {b : Byte} {r : RxRegs} {o : Decoded} (hc : s.cfg.cfgEnable = true) (hr : s.rxEn = true)
include hc hr

theorem exec_rxb_pending (hd : decodeStep s.cfg s.rx b = .ok (r, .pending)) :
    exec (.rxb b) s = .next { s with rx := r, snt := sntAfterByte s.cfg s.rx.state r.state s.snt } :=
  rxByte_of_on hc hr hd

theorem exec_rxb_first (hd : decodeStep s.cfg s.rx b = .ok (r, .pending)) (hp : s.rx.state = .idle)
    (hn : r.state ≠ .idle) :
    exec (.rxb b) s = .next { s with rx := r, snt := ⟨true, s.cfg.sntWindow⟩ } := by
  rw [exec_rxb_pending hc hr hd, hp, sntAfterByte_first s.cfg s.snt hn]

theorem exec_rxb_inFrame (hd : decodeStep s.cfg s.rx b = .ok (r, .pending)) (hp : s.rx.state ≠ .idle)
    (hn : r.state ≠ .idle) :
    exec (.rxb b) s = .next { s with
      rx := r
      snt := if s.cfg.sntMode = .interByte then ⟨true, s.cfg.sntWindow⟩ else s.snt } := by
  rw [exec_rxb_pending hc hr hd, sntAfterByte_inFrame s.cfg s.snt hp hn]

/-- A byte with an outcome leads to IDLE and stops the window. -/
theorem exec_rxb_exit (hd : decodeStep s.cfg s.rx b = .ok (r, o)) (ho : o ≠ .pending) :
    exec (.rxb b) s = .next { rxExit o { s with rx := r } with snt := { s.snt with armed := false } } := by
  have hidle : (rxExit o { s with rx := r }).rx.state = .idle := by
    rw [rxExit_rx]
    cases o with
    | pending => exact absurd rfl ho
    | _ => rfl
  refine (rxByte_of_on hc hr hd).trans ?_
  rw [safetyNetAfterByte, hidle, sntAfterByte_idle, rxExit_snt]

end

theorem decodeBytes_cons_ok {c : Config} {r r' : RxRegs} {b : Byte} {bs : List Byte} {os : List Decoded}
    (h : decodeBytes c r (b :: bs) = .ok (r', os)) :
    ∃ r1 o os', decodeStep c r b = .ok (r1, o) ∧ decodeBytes c (exitToIdle r1 o) bs = .ok (r', os') ∧
      os = o :: os' := by
  simp only [decodeBytes] at h
  split at h
  · cases h
  · rename_i r1 o hd
    split at h
    · cases h
    · rename_i r2 os' hds
      cases h
      exact ⟨r1, o, os', hd, hds, rfl⟩

theorem rxEvents_append (xs ys : List Byte) : rxEvents (xs ++ ys) = rxEvents xs ++ rxEvents ys := List.map_append

theorem execAll_rxEvents_singleton {s t : State} {b : Byte} (h : exec (.rxb b) s = .next t) :
    execAll (rxEvents [b]) s = .next t := by
  simp only [rxEvents, List.map_cons, List.map_nil, execAll, h]

/-- Bytes without an outcome, received one by one: only the receive registers and the timer change. -/
theorem execAll_rxEvents_pending : ∀ {bs : List Byte} {s : State} {r : RxRegs}, s.cfg.cfgEnable = true →
    s.rxEn = true → decodeBytes s.cfg s.rx bs = .ok (r, List.replicate bs.length .pending) →
    ∃ w, execAll (rxEvents bs) s = .next { s with rx := r, snt := w } := by
  intro bs
  induction bs with
  | nil =>
    intro s r _ _ h
    cases h
    exact ⟨s.snt, rfl⟩
  | cons b bs ih =>
    intro s r hc hr h
    obtain ⟨r1, o, os, hd, hrest, hos⟩ := decodeBytes_cons_ok h
    obtain ⟨rfl, rfl⟩ := List.cons.inj hos
    have hb := exec_rxb_pending hc hr hd
    obtain ⟨w, hw⟩ := ih (s := { s with rx := r1, snt := sntAfterByte s.cfg s.rx.state r1.state s.snt }) hc hr hrest
    refine ⟨w, ?_⟩
    simp only [rxEvents, List.map_cons, execAll, hb]
    exact hw

end Sys2Proof.Machine
end

section
/-! CERTIFICATES. The frame codec (spec/40_codec.md), and a whole frame received (spec/41_receive.md). -/

namespace Sys2Proof.Machine

/-- Settles O18: the bytes before the last have no outcome, and the last one completes the frame. -/
theorem referenceFramesDecodeToThemselves : Obligations.ReferenceFramesDecodeToThemselves := by
  intro c r a t p hc h hp
  obtain ⟨bs, x, r1, r2, henc, hbs, hx⟩ := decode_encodeM2S a t hc h hp
  rw [henc, List.length_append, List.length_singleton, Nat.add_sub_cancel]
  exact ⟨_, decodeBytes_append hbs (decodeBytes_one hx)⟩

/-- Settles O19: the change keeps the length byte, so the framing, and makes the sum over all bytes nonzero. -/
theorem flippedBitIsAChecksumError : Obligations.FlippedBitIsAChecksumError := by
  intro c r a t p j k b hc h hne hp hj hk hb
  have hlen := toNat_payloadLength hc hp
  have hn : BitVec.ofNat 8 p.length ≠ 0#8 := ne_zero_of_lt_toNat (hlen.symm ▸ List.length_pos_iff.2 hne)
  have henc := encodeM2S_of_ne a t hne
  have hsum : xor8 ((encodeM2S a t p).set j (b ^^^ BitVec.twoPow 8 k)) ≠ 0#8 := by
    rw [xor8_set_xor _ hb, henc, (xor8_concat_eq_zero_iff _ _).2 rfl, BitVec.zero_xor]
    exact twoPow_byte_ne_zero hk
  obtain ⟨a', t', q, hset, hq⟩ := header_set_of_ne_two a t (BitVec.ofNat 8 p.length) (b ^^^ BitVec.twoPow 8 k)
    (p ++ [xor8 ([a, t, BitVec.ofNat 8 p.length] ++ p)]) hj
  rw [← List.append_assoc, ← henc] at hset
  obtain ⟨r', o, hd, _, ho⟩ := decodeBytes_header_and_rest c a' t' (BitVec.ofNat 8 p.length) (q := q) h
    (by rw [hq, hlen]; simp) hn (by rwa [hlen])
  rw [hset] at hsum ⊢
  rw [length_encodeM2S_of_ne a t hne, hd, hlen, ho hsum]
  exact ⟨r', rfl⟩

/-- Settles O25: the bytes before the last touch only the receive registers and the timer, and the last one takes the
exit of a completed frame. -/
theorem goodFrameReachesTheQueue : Obligations.GoodFrameReachesTheQueue := by
  intro s a ty p hc hen hrx hidle hp
  obtain ⟨bs, x, r1, r2, henc, hbs, hx⟩ := decode_encodeM2S a ty hc hidle hp
  obtain ⟨w, hw⟩ := execAll_rxEvents_pending hen hrx hbs
  have hlast := exec_rxb_exit (s := { s with rx := r1, snt := w }) hen hrx hx nofun
  have hrun := execAll_append (rxEvents bs) (rxEvents [x]) s _ hw
  rw [← rxEvents_append, ← henc, execAll_rxEvents_singleton hlast] at hrun
  refine ⟨_, hrun, ?_, rfl, ?_, ?_, ?_⟩
  · simp only [rxExit_rx, exitToIdle]
  · simp only [rxExit_rq]
  · simp only [rxExit_cnt]
  · rw [rxExit_frame]

/-- Settles O9: each `rx` line that `mframe` stands for assembles to the RXB word of its byte. -/
theorem mframeIsTheReferenceEncoder : Obligations.MframeIsTheReferenceEncoder :=
  ⟨fun _ _ => rfl, fun a t _ hne _ => encodeM2S_of_ne a t hne, fun a t _ hp => by
    rw [assemble_singleton_mframe, expand_mframe a t hp, linesWords_rx]⟩

/-- Settles O10, from the sum of two pieces. -/
theorem xorChecksumLaws : Obligations.XorChecksumLaws :=
  ⟨rfl, xor8_concat, fun _ _ h => xor8_perm h, fun s => (xor8_concat_eq_zero_iff s _).2 rfl, by decide⟩

/-- Settles O12: the bytes of the held response, and that there are `tx_total` of them. -/
theorem txBytesAreTheEncodedResponse : Obligations.TxBytesAreTheEncodedResponse := by
  intro s r h i b hb
  refine ⟨?_, txByte_of_holdsResponse h hb⟩
  obtain ⟨_, _, _, htotal, _⟩ := h
  rw [htotal]
  exact (List.getElem?_eq_some_iff.1 hb).1

/-- Settles O15, one decode step for each of the three cases of the length byte. -/
theorem lengthByteCases : Obligations.LengthByteCases := by
  intro s b hc hr hs
  refine ⟨?_, fun h0 hlong => ?_, fun h0 hfits => ?_⟩
  · rintro rfl
    exact decodeStep_awLen_zero s.cfg hs
  · have hd := decodeStep_awLen_long s.cfg hs h0 hlong
    exact ⟨hd, exec_rxb_exit hc hr hd nofun⟩
  · have hd := decodeStep_awLen_ok s.cfg hs h0 hfits
    exact ⟨hd, exec_rxb_inFrame hc hr hd (by rw [hs]; nofun) nofun⟩

/-- Settles O16: in bounds the decode step writes the one index and answers NONE. -/
theorem payloadByteIsBuffered : Obligations.PayloadByteIsBuffered := by
  intro s b hc hr hs h1 hrem hlen
  have hi := toNat_sub_byte hrem
  have hd := decodeStep_awPayload s.cfg b hs (by omega)
  refine ⟨_, exec_rxb_inFrame hc hr hd (by rw [hs]; nofun) ?_, hd, ?_, fun j hj => ?_, ?_, rfl, rfl, rfl⟩
  · split <;> nofun
  · rw [← hi]
    exact Memory.read_write_same _ _ _
  · exact Memory.read_write_ne _ _ (by rwa [hi])
  · split
    · exact toNat_pred_byte h1
    · rename_i hlast
      exact (Nat.sub_eq_zero_of_le (Nat.not_lt.1 hlast)).symm

/-- Settles O17: the comparison with `rx_xor` decides between the two outcomes. -/
theorem checksumByteCases : Obligations.ChecksumByteCases := by
  intro s b p hc hr hs hlen hmax hbuf
  refine ⟨?_, fun hb => ?_⟩
  · rintro rfl
    exact decodeStep_awCksum_good s.cfg hs hlen hmax hbuf
  · have hd := decodeStep_awCksum_bad s.cfg hs hb
    exact ⟨hd, exec_rxb_exit hc hr hd nofun⟩

/-- Settles O20, by the four ways the new length byte frames the bytes after it. -/
theorem flippedLengthByteReframes : Obligations.FlippedLengthByteReframes := by
  intro c r a t n p hc h hne hp _
  obtain ⟨x, henc⟩ := encodeM2S_set_length a t n hne
  rw [henc]
  refine ⟨?_, fun hlong => ?_, fun hn hless => ?_, fun hmore hfits => ?_⟩
  · rintro rfl
    exact ⟨_, decodeBytes_lengthByte h (decodeStep_awLen_zero c rfl)⟩
  · exact ⟨_, decodeBytes_lengthByte h (decodeStep_awLen_long c rfl (ne_zero_of_lt_toNat hlong) hlong)⟩
  · obtain ⟨r', o, hd, ho, _⟩ := decodeBytes_header_and_rest c a t n (q := (p ++ [x]).take (n.toNat + 1)) h
      (by simp; omega) hn (by omega)
    exact ⟨r', o, hd, ho⟩
  · obtain ⟨r', hd, hstate⟩ := decodeBytes_header_and_part c a t n (q := p ++ [x]) h (by simp; omega)
      (ne_zero_of_lt_toNat hmore) hfits
    rw [List.length_append] at hd
    exact ⟨r', hd, hstate⟩

/-- Settles O11: a response of length 0 takes the branch of EMPTY, any other has its checksum from the policy. -/
theorem slaveFrameEncoding : Obligations.SlaveFrameEncoding :=
  ⟨fun _ => rfl, fun c mtype n p hn hpol => by rw [encodeS2M_data c mtype p hn, cksS2M_xor mtype n p hpol],
    fun c mtype n _ p hn hpol => by rw [encodeS2M_data c mtype p hn, cksS2M_fixed mtype n p hpol], fun _ _ _ => rfl⟩

/-- Settles O13: the decode step of IDLE, which starts the window under both modes. -/
theorem idleByteIsTheAddress : Obligations.IdleByteIsTheAddress := by
  intro s b hc hr hs
  have hd := decodeStep_idle s.cfg b hs
  exact ⟨hd, exec_rxb_first hc hr hd hs nofun⟩

/-- Settles O14: the decode step of AW_TYPE, inside a frame. -/
theorem typeByteIsStored : Obligations.TypeByteIsStored := by
  intro s b hc hr hs
  have hd := decodeStep_awType s.cfg b hs
  exact ⟨hd, exec_rxb_inFrame hc hr hd (by rw [hs]; nofun) nofun⟩

end Sys2Proof.Machine
end

section
/-! SUPPORT. The receive path in equations (spec/41_receive.md): the address filter and the address classes, the exit of
a completed frame and of a receive error, the window under its two modes, and a run of TICKs. -/

namespace Sys2Proof.Machine

/-! ### The address filter (spec/41_receive.md R106, spec/20_memory.md R49) -/

theorem eq_zero_of_addressClass_broadcast {a : Byte} (h : addressClass a = .broadcast) : a = 0#8 := by
  unfold addressClass at h
  split at h
  · rename_i h0
    exact BitVec.eq_of_toNat_eq h0
  · split at h <;> cases h

theorem lt_toNat_of_addressClass_unassigned {a : Byte} (h : addressClass a = .unassigned) : 126 < a.toNat := by
  unfold addressClass at h
  split at h
  · cases h
  · split at h
    · cases h
    · rename_i hmax
      exact Nat.not_le.1 hmax

/-! ### RX_BYTE (spec/41_receive.md R102 to R109) -/

theorem rxByte_eq_rxAccept {s : State} (b : Byte) (hc : s.cfg.cfgEnable = true) (hr : s.rxEn = true) :
    rxByte b s = rxAccept b s := by
  simp [rxByte, hc, hr]

/-- The exit of a completed frame as one state. -/
theorem rxExit_ready (f : Frame) (s : State) :
    rxExit (.ready f) s = { s with
      rx := { s.rx with state := .idle }
      cnt := { s.cnt with
        frames := s.cnt.frames + 1
        qovf := if (f.addr = s.cfg.myAddr ∨ f.addr = 0#8) ∧ s.cfg.reqQueueDepth ≤ s.rq.length
          then s.cnt.qovf + 1 else s.cnt.qovf }
      rq := if (f.addr = s.cfg.myAddr ∨ f.addr = 0#8) ∧ s.rq.length < s.cfg.reqQueueDepth
        then s.rq ++ [f] else s.rq } := by
  rw [rxExit_frame, rxExit_rx, rxExit_cnt, rxExit_rq]
  rfl

/-- Only the two receive errors change an error count at the exit. -/
theorem isError_of_rxExit_errorCount {o : Decoded} {s : State}
    (h : (rxExit o s).cnt.cksumErr ≠ s.cnt.cksumErr ∨ (rxExit o s).cnt.lenErr ≠ s.cnt.lenErr) :
    o = .errLength ∨ o = .errChecksum := by
  rw [rxExit_cnt] at h
  cases o with
  | pending => exact absurd h (by simp)
  | ready f => exact absurd h (by simp)
  | errLength => exact .inl rfl
  | errChecksum => exact .inr rfl

theorem sntAfterByte_interByte {c : Config} (prev : RxState) {now : RxState} (t : Snt) (hn : now ≠ .idle)
    (hm : c.sntMode = .interByte) : sntAfterByte c prev now t = ⟨true, c.sntWindow⟩ := by
  by_cases hp : prev = .idle
  · rw [hp, sntAfterByte_first c t hn]
  · rw [sntAfterByte_inFrame c t hp hn, if_pos hm]

/-! ### TICK (spec/41_receive.md R110, R111) -/

theorem execTick_of_off {s : State} (h : s.cfg.cfgEnable = false ∨ s.snt.armed = false) :
    execTick s = .next s := by
  rcases h with h | h <;> simp [execTick, h]

theorem execTick_countDown {s : State} (hc : s.cfg.cfgEnable = true) (ha : s.snt.armed = true) (h : 2 ≤ s.snt.count) :
    execTick s = .next { s with snt := { s.snt with count := s.snt.count - 1 } } := by
  have h0 : s.snt.count - 1 ≠ 0 := by omega
  simp [execTick, hc, ha, h0]

theorem execTick_fire {s : State} (hc : s.cfg.cfgEnable = true) (ha : s.snt.armed = true) (h : s.snt.count = 1) :
    execTick s = .next { s with
      rx := { s.rx with state := .idle }
      snt := ⟨false, 0⟩
      cnt := { s.cnt with desync := s.cnt.desync + 1 } } := by
  simp [execTick, hc, ha, h, safetyNetFire, raise, Stats.count]

theorem execAll_singleton (i : Instr) (s : State) : execAll [i] s = exec i s := by
  simp only [execAll]
  cases exec i s <;> rfl

theorem execAll_tickEvents_succ {k : Nat} {s t : State} (h : execAll (tickEvents k) s = .next t) :
    execAll (tickEvents (k + 1)) s = execTick t := by
  have hsplit : tickEvents (k + 1) = tickEvents k ++ [.tick] := List.replicate_succ'
  rw [hsplit, execAll_append _ _ _ _ h, execAll_singleton]
  rfl

/-- Fewer TICKs than the window holds only count it down. -/
theorem execAll_tickEvents_countDown {s : State} (hc : s.cfg.cfgEnable = true) (ha : s.snt.armed = true) :
    ∀ k, k < s.snt.count →
      execAll (tickEvents k) s = .next { s with snt := { s.snt with count := s.snt.count - k } } := by
  intro k
  induction k with
  | zero => exact fun _ => rfl
  | succ k ih =>
    intro hk
    have hrest : 2 ≤ s.snt.count - k := by omega
    rw [execAll_tickEvents_succ (ih (Nat.lt_of_succ_lt hk))]
    exact execTick_countDown hc ha hrest

end Sys2Proof.Machine
end

section
/-! CERTIFICATES. The receive path and the safety net (spec/41_receive.md). -/

namespace Sys2Proof.Machine

/-- Settles O22: the filter and the room in the queue choose among the three forms of the completed frame's exit. -/
theorem completedFrameIsFilteredAndQueued : Obligations.CompletedFrameIsFilteredAndQueued := by
  intro s b r f hc hr hd
  rw [exec_rxb_exit hc hr hd nofun, rxExit_ready]
  refine ⟨fun ha hroom => ?_, fun ha hfull => ?_, fun ha => ?_⟩
  · simp [ha, hroom, Nat.not_le.2 hroom]
  · simp [ha, hfull, Nat.not_lt.2 hfull]
  · simp [ha]

/-- Settles O27, from the timer after a byte that leads to IDLE, to the first state of a frame, or inside a frame. -/
theorem windowFollowsTheMode : Obligations.WindowFollowsTheMode := by
  intro s b r o hc hr hd
  refine ⟨_, rxByte_of_on hc hr hd, by simp, ?_⟩
  simp only [safetyNetAfterByte_rx, safetyNetAfterByte_snt, rxExit_rx, rxExit_snt, rxExit_cfg]
  refine ⟨fun hidle => ?_, fun hn hm => ?_, fun hn _ hp => ?_, fun hn hm hp => ?_⟩
  · rw [hidle, sntAfterByte_idle]
  · exact sntAfterByte_interByte _ _ hn hm
  · rw [hp, sntAfterByte_first _ _ hn]
  · rw [sntAfterByte_inFrame _ _ hp hn, if_neg (by rw [hm]; nofun)]

/-- Settles O28: a byte that changes an error count was decoded and had an error for its outcome. -/
theorem receiveErrorReturnsToIdle : Obligations.ReceiveErrorReturnsToIdle := by
  intro s t b h hcount
  rcases rxByte_next h with ⟨_, rfl⟩ | ⟨_, _, r, o, _, rfl⟩
  · exact absurd hcount (by simp)
  · rcases isError_of_rxExit_errorCount (s := { s with rx := r }) hcount with rfl | rfl
    · exact ⟨rfl, rfl, rfl⟩
    · exact ⟨rfl, rfl, rfl⟩

/-- Settles O30: all TICKs but the last count the window down to 1, and the last one fires it. -/
theorem safetyNetFiresAfterItsWindow : Obligations.SafetyNetFiresAfterItsWindow := by
  intro s hc ha h1
  have hdown := execAll_tickEvents_countDown hc ha
  refine ⟨hdown, ?_⟩
  have hlast := execAll_tickEvents_succ (hdown (s.snt.count - 1) (Nat.sub_one_lt_of_lt h1))
  rw [Nat.sub_add_cancel h1] at hlast
  rw [hlast]
  exact execTick_fire hc ha (Nat.sub_sub_self h1)

/-- Settles O21, by the two guards of RX_BYTE. -/
theorem byteIsDiscardedWhileReceptionIsOff : Obligations.ByteIsDiscardedWhileReceptionIsOff := fun _ b =>
  ⟨fun hc => rxByte_of_off (.inl hc), fun hr => rxByte_of_off (.inr hr), rxByte_eq_rxAccept b⟩

/-- Settles O23: an unassigned address is above 126, and this slave's is at most 126. -/
theorem filterAcceptsOwnAddressAndBroadcast : Obligations.FilterAcceptsOwnAddressAndBroadcast := by
  refine ⟨accept_iff, fun c a hc ha => ?_, fun c a ha => ?_⟩
  · have hlt := lt_toNat_of_addressClass_unassigned ha
    obtain ⟨⟨_, hmax⟩, _⟩ := (configOk_iff c).1 hc
    rw [← Bool.not_eq_true, accept_iff]
    rintro (rfl | rfl)
    · exact absurd hmax (Nat.not_le.2 hlt)
    · exact absurd hlt (by decide)
  · exact (accept_iff c a).2 (.inr (eq_zero_of_addressClass_broadcast ha))

/-- Settles O29, one equation of TICK for each case of the window. -/
theorem tickCountsDownAndFires : Obligations.TickCountsDownAndFires := fun _ =>
  ⟨fun hc => execTick_of_off (.inl hc), fun ha => execTick_of_off (.inr ha), execTick_countDown, execTick_fire⟩

end Sys2Proof.Machine
end

section
/-! SUPPORT. The transmit engine (spec/42_transmit.md): the events of the host and the UART in equations, what an event
can do to the transmit side, and the bytes of a job on their way to the line. -/

namespace Sys2Proof.Machine

/-! ### When TX_BEGIN and TX_DONE are taken (R119, R125) -/

theorem State.de_iff (s : State) : s.de = true ↔ s.dir = .transmit := by
  unfold State.de
  cases s.dir <;> simp

theorem txBeginMisuse_iff (s : State) (len : Byte) :
    txBeginMisuse s len = true ↔ s.tx.active = true ∨ s.dir = .transmit ∨ s.cfg.maxPayload < len.toNat := by
  simp [txBeginMisuse, or_assoc]

theorem txSpaceEnabled_iff (s : State) :
    txSpaceEnabled s = true ↔ s.tx.active = true ∧ s.utxFifo.length < s.cfg.txFifoDepth := by
  simp [txSpaceEnabled]

theorem txDoneEnabled_iff (s : State) :
    txDoneEnabled s = true ↔ s.tx.active = true ∧ s.tx.idx = s.tx.total ∧ s.utxFifo = [] := by
  simp [txDoneEnabled, and_assoc]

/-! ### TX_BEGIN (R119, R120) -/

theorem execTxb_of_disabled {r : Response} {s : State} (hc : s.cfg.cfgEnable = false) :
    execTxb r s = .next { s with outputs := s.outputs ++ [.txbStatus .rejected] } := if_pos hc

theorem execTxb_of_enabled {r : Response} {s : State} (hc : s.cfg.cfgEnable = true) :
    execTxb r s = if txBeginMisuse s (responseLen r) then .next (emit (.txbStatus .rejected) (raise .txMisuse s))
      else txAccept r s := if_neg (by rw [hc]; decide)

theorem HoldsResponse.total {s : State} {r : Response} (h : HoldsResponse s r) :
    s.tx.total.toNat = (encodeS2M s.cfg r).length := by
  obtain ⟨_, _, _, htotal, _⟩ := h
  exact htotal

/-- What the job of a well-formed response holds, wherever its `Load` has come to. -/
theorem holdsResponse_startJob {s t : State} {r : Response} (hw : r.wf = true)
    (hm : (responseLen r).toNat ≤ s.cfg.maxPayload) (hcfg : t.cfg = s.cfg)
    (htx : t.tx = { startJob s.cfg r s.tx with idx := t.tx.idx }) : HoldsResponse t r := by
  obtain ⟨hlen, htotal, _⟩ := txByte_startJob (j := s.tx) hw hm
  refine ⟨hw, hcfg ▸ hm, by rw [htx]; exact hlen, by rw [htx, hcfg]; exact htotal, ?_⟩
  cases r with
  | empty => trivial
  | data mtype n p =>
    obtain ⟨_, hp⟩ := (Response.wf_data_iff mtype).1 hw
    rw [htx]
    refine ⟨rfl, fun k b hk => ?_⟩
    have hread := Memory.read_writeFrom p s.tx.buf 0 k b hk
    rw [Nat.zero_add] at hread
    simpa [startJob, setResponse, ← hp] using hread

/-- A new job writes `tx_buf` below the length of its response only. -/
theorem read_startJob_of_ge {r : Response} {k : Nat} (c : Config) (j : TxJob) (hw : r.wf = true)
    (hk : (responseLen r).toNat ≤ k) : Memory.read (startJob c r j).buf k = Memory.read j.buf k := by
  cases r with
  | empty => rfl
  | data mtype n p =>
    obtain ⟨_, hp⟩ := (Response.wf_data_iff mtype).1 hw
    refine Memory.read_writeFrom_ge _ _ _ _ ?_
    rw [Nat.zero_add, List.length_take, hp, Nat.min_self]
    exact hk

/-- A TX_BEGIN that starts a job was not rejected. -/
theorem accepted_of_execTxb_starts {r : Response} {s t : State} (h : execTxb r s = .next t)
    (ha : s.tx.active = false) (ht : t.tx.active = true) :
    s.cfg.cfgEnable = true ∧ s.dir = .receive ∧ (responseLen r).toNat ≤ s.cfg.maxPayload := by
  rcases execTxb_next h with ⟨_, rfl⟩ | ⟨_, _, rfl⟩ | ⟨hc, _, hd, hm, _⟩
  · exact absurd ht (ne_true_of_eq_false ha)
  · exact absurd ht (ne_true_of_eq_false ha)
  · exact ⟨hc, hd, hm⟩

/-! ### TX_SPACE and LINE_OUT (R121 to R123) -/

/-- TX_SPACE loads the next bytes of the held response. -/
theorem execTxs_of_holdsResponse {s : State} {r : Response} (h : HoldsResponse s r) (ha : s.tx.active = true)
    (hroom : s.utxFifo.length < s.cfg.txFifoDepth) (hi : s.tx.idx.toNat ≤ s.tx.total.toNat) :
    ∃ t, execTxs s = .next t ∧
      t.tx.idx.toNat = min s.tx.total.toNat (s.tx.idx.toNat + (s.cfg.txFifoDepth - s.utxFifo.length)) ∧
      t = { s with
        utxFifo := s.utxFifo ++
          ((encodeS2M s.cfg r).drop s.tx.idx.toNat).take (s.cfg.txFifoDepth - s.utxFifo.length)
        tx := { s.tx with idx := t.tx.idx } } := by
  obtain ⟨t, hload, hidx, ht⟩ := load_bytes h.total.symm hi fun _ _ => txByte_of_holdsResponse h
  exact ⟨t, by simp only [execTxs, if_pos ((txSpaceEnabled_iff s).2 ⟨ha, hroom⟩), hload], hidx, ht⟩

theorem execLout_nil {s : State} (hf : s.utxFifo = []) : execLout s = .refused .lineOutNotEnabled := by
  simp only [execLout, hf]

theorem execLout_cons {s : State} {b : Byte} {rest : List Byte} (hf : s.utxFifo = b :: rest) :
    execLout s = if s.cfg.echo then rxByte b { s with utxFifo := rest, busOut := s.busOut ++ [b] }
      else .next { s with utxFifo := rest, busOut := s.busOut ++ [b] } := by
  simp only [execLout, hf]

/-- In a state of the invariant a byte waits in the FIFO only while the bus is driven and reception is off (R41). -/
theorem Inv.transmitting_of_fifo {s : State} (h : Inv s) (hf : s.utxFifo ≠ []) :
    s.de = true ∧ s.rxEn = false := by
  have hx := h.sidesOk.transmit
  have ha := hx.fifoOnlyInJob hf
  exact ⟨(State.de_iff s).2 (hx.activeIffTransmit.1 ha), hx.activeIffRxOff.1 ha⟩

/-! ### What an event can do to the transmit side (R126) -/

/-- The same TxJob, direction, FIFO and line, and reception on or off in both. -/
structure SameTransmit (s t : State) : Prop where
  tx : t.tx = s.tx
  rxEn : t.rxEn = s.rxEn
  dir : t.dir = s.dir
  utxFifo : t.utxFifo = s.utxFifo
  busOut : t.busOut = s.busOut

/-- What an event can do to the transmit side: leave it, start a job, load bytes, send one, or release the bus. -/
inductive TransmitStep (s t : State) : Instr → Prop where
  | kept {i : Instr} (same : SameTransmit s t) : TransmitStep s t i
  | started {r : Response} (free : s.tx.active = false) (receiving : s.dir = .receive) (active : t.tx.active = true)
      (transmitting : t.dir = .transmit) (rxOff : t.rxEn = false)
      (accepted : t.outputs = s.outputs ++ [.txbStatus .accepted]) : TransmitStep s t (.txb r)
  | loaded {bs : List Byte} {x : TxIndex}
      (written : t = { s with utxFifo := s.utxFifo ++ bs, tx := { s.tx with idx := x } }) : TransmitStep s t .txs
  | sent {b : Byte} {rest : List Byte} (head : s.utxFifo = b :: rest)
      (same : SameTransmit { s with utxFifo := rest, busOut := s.busOut ++ [b] } t) : TransmitStep s t .lout
  | released {i : Instr} (event : i = .txd ∨ i = .rst) (done : t.tx.active = false) (receiving : t.dir = .receive)
      (rxOn : t.rxEn = true) : TransmitStep s t i

theorem SameTransmit.refl (s : State) : SameTransmit s s := ⟨rfl, rfl, rfl, rfl, rfl⟩

theorem rxByte_sameTransmit {b : Byte} {s t : State} (h : rxByte b s = .next t) : SameTransmit s t := by
  rcases rxByte_next h with ⟨_, rfl⟩ | ⟨_, _, r, o, _, rfl⟩
  · exact .refl _
  · constructor <;> simp

/-- Every event, in every state; an echo that is decoded does not touch the transmit side. -/
theorem exec_transmitStep {i : Instr} {s t : State} (h : exec i s = .next t) : TransmitStep s t i := by
  cases i with
  | rxb b => exact .kept (rxByte_sameTransmit h)
  | tick => rcases execTick_next h with ⟨_, rfl⟩ | ⟨_, _, _, rfl⟩ | ⟨_, _, _, rfl⟩ <;> exact .kept ⟨rfl, rfl, rfl, rfl, rfl⟩
  | txb r =>
    rcases execTxb_next h with ⟨_, rfl⟩ | ⟨_, _, rfl⟩ | ⟨_, ha, hd, _, bs, _, _, _, ht⟩
    · exact .kept ⟨rfl, rfl, rfl, rfl, rfl⟩
    · exact .kept ⟨rfl, rfl, rfl, rfl, rfl⟩
    · exact .started ha hd (by rw [ht]; rfl) (by rw [ht]) (by rw [ht]) (by rw [ht])
  | arg b => cases h
  | txs =>
    obtain ⟨_, _, bs, _, _, ht, _⟩ := execTxs_next h
    exact .loaded ht
  | lout =>
    obtain ⟨b, rest, hf, ⟨_, hecho⟩ | ⟨_, rfl⟩⟩ := execLout_next h
    · exact .sent hf (rxByte_sameTransmit hecho)
    · exact .sent hf (.refl _)
  | txd =>
    obtain ⟨_, _, _, rfl⟩ := execTxd_next h
    exact .released (.inl rfl) rfl rfl rfl
  | pop => rcases execPop_next h with ⟨_, rfl⟩ | ⟨f, rest, _, rfl⟩ <;> exact .kept ⟨rfl, rfl, rfl, rfl, rfl⟩
  | stat sel =>
    cases h
    exact .kept ⟨rfl, rfl, rfl, rfl, rfl⟩
  | rst =>
    cases h
    exact .released (.inr rfl) rfl rfl rfl

/-! ### Several events -/

/-- What each event of a list keeps holds after the whole list. -/
theorem execAll_preserves {P : State → Prop} : ∀ {es : List Instr} {s t : State},
    (∀ e ∈ es, ∀ u v, P u → exec e u = .next v → P v) → P s → execAll es s = .next t → P t := by
  intro es
  induction es with
  | nil =>
    intro s t _ hs h
    cases h
    exact hs
  | cons e es ih =>
    intro s t hstep hs h
    simp only [execAll] at h
    split at h
    · rename_i u hu
      exact ih (fun e' he' => hstep e' (List.mem_cons_of_mem _ he')) (hstep e (List.mem_cons_self ..) s u hs hu) h
    · cases h
    · cases h

/-! ### The bytes of a job (R128) -/

theorem HoldsResponse.congr {s t : State} {r : Response} (h : HoldsResponse s r) (hc : t.cfg = s.cfg)
    (htx : t.tx = { s.tx with idx := t.tx.idx }) : HoldsResponse t r := by
  unfold HoldsResponse
  rw [htx, hc]
  exact h

/-- A job in flight for r, begun when the line stood at `out`: what has left since and what waits in the FIFO are the
first `tx_idx` bytes of the encoding. -/
structure SendsAfter (c : Config) (out : List Byte) (r : Response) (s : State) : Prop where
  cfg : s.cfg = c
  holds : HoldsResponse s r
  active : s.tx.active = true
  idxLeTotal : s.tx.idx.toNat ≤ s.tx.total.toNat
  stream : s.busOut ++ s.utxFifo = out ++ (encodeS2M c r).take s.tx.idx.toNat

theorem SendsAfter.length_encodeS2M {c : Config} {out : List Byte} {r : Response} {s : State}
    (h : SendsAfter c out r s) : (encodeS2M c r).length = s.tx.total.toNat := by
  rw [h.holds.total, h.cfg]

/-- An accepted TX_BEGIN that finds the FIFO empty. -/
theorem SendsAfter.start {s t : State} {r : Response} (hf : s.utxFifo = []) (ha : s.tx.active = false)
    (hw : r.wf = true) (h : execTxb r s = .next t) (ht : t.tx.active = true) :
    SendsAfter s.cfg s.busOut r t := by
  obtain ⟨hc, hd, hm⟩ := accepted_of_execTxb_starts h ha ht
  obtain ⟨u, hu, hidx, heq⟩ := execTxb_accepted hc ha hd hw hm
  cases hu.symm.trans h
  have hcfg : t.cfg = s.cfg := by rw [heq]
  have hholds : HoldsResponse t r := holdsResponse_startJob hw hm hcfg (by rw [heq])
  refine ⟨hcfg, hholds, ht, ?_, ?_⟩
  · rw [hidx, hholds.total, hcfg]
    exact Nat.min_le_left _ _
  · rw [hidx, Nat.min_comm, ← List.take_eq_take_min, heq, hf]
    simp

/-- A `Load` moves bytes of the encoding into the FIFO and `tx_idx` past them. -/
theorem SendsAfter.load {c : Config} {out : List Byte} {r : Response} {s t : State} (hs : SendsAfter c out r s)
    (h : execTxs s = .next t) : SendsAfter c out r t := by
  obtain ⟨_, hroom, _⟩ := execTxs_next h
  have hlen := hs.length_encodeS2M
  obtain ⟨rfl, hholds, hactive, hle, hstream⟩ := hs
  obtain ⟨u, hu, hidx, heq⟩ := execTxs_of_holdsResponse hholds hactive hroom hle
  cases hu.symm.trans h
  refine ⟨by rw [heq], hholds.congr (by rw [heq]) (by rw [heq]), by rw [heq]; exact hactive, ?_, ?_⟩
  · rw [hidx, heq]
    exact Nat.min_le_left _ _
  · rw [hidx, ← hlen, Nat.min_comm, ← List.take_eq_take_min, List.take_add, ← List.append_assoc, ← hstream, heq,
      List.append_assoc]

/-- The FIFO's head may move to the end of the line. -/
theorem SendsAfter.congr {c : Config} {out : List Byte} {r : Response} {s t : State} (hs : SendsAfter c out r s)
    (hcfg : t.cfg = s.cfg) (htx : t.tx = s.tx) (hstream : t.busOut ++ t.utxFifo = s.busOut ++ s.utxFifo) :
    SendsAfter c out r t :=
  ⟨hcfg.trans hs.cfg, hs.holds.congr hcfg (by rw [htx]), by rw [htx]; exact hs.active,
    by rw [htx]; exact hs.idxLeTotal, by rw [htx, hstream]; exact hs.stream⟩

/-- Every event but TX_DONE and RESET. -/
theorem SendsAfter.exec {c : Config} {out : List Byte} {r : Response} {i : Instr} {s t : State}
    (hs : SendsAfter c out r s) (h : exec i s = .next t) (hi : i ≠ .txd ∧ i ≠ .rst) : SendsAfter c out r t := by
  have hcfg := exec_cfg h
  cases exec_transmitStep h with
  | kept same => exact hs.congr hcfg same.tx (by rw [same.busOut, same.utxFifo])
  | started free => exact absurd hs.active (ne_true_of_eq_false free)
  | loaded => exact hs.load h
  | sent hf same => exact hs.congr hcfg same.tx (by rw [same.busOut, same.utxFifo, hf, List.append_assoc]; rfl)
  | released event => exact absurd event (not_or.2 hi)

/-- TX_DONE finds every byte of the encoding on the line. -/
theorem SendsAfter.busOut_of_execTxd {c : Config} {out : List Byte} {r : Response} {s t : State}
    (hs : SendsAfter c out r s) (h : execTxd s = .next t) : t.busOut = out ++ encodeS2M c r := by
  obtain ⟨_, hidx, hf, rfl⟩ := execTxd_next h
  have hstream := hs.stream
  rwa [hf, List.append_nil, hidx, ← hs.length_encodeS2M, List.take_length] at hstream

end Sys2Proof.Machine
end

section
/-! CERTIFICATES. The transmit engine and the completion handler (spec/42_transmit.md). -/

namespace Sys2Proof.Machine

/-- Settles O41: every event of the interleaving keeps the bytes on the line followed by those in the FIFO equal to the
part of the encoding loaded so far, and TX_DONE finds all of it loaded and the FIFO empty. -/
theorem bytesOnTheLineAreTheEncodedResponse : Obligations.BytesOnTheLineAreTheEncodedResponse := by
  intro s s1 s2 s3 r es hs hw ha hbegin hactive hes hrun hdone
  have hf : s.utxFifo = [] := by
    by_contra hne
    exact absurd (hs.sidesOk.transmit.fifoOnlyInJob hne) (ne_true_of_eq_false ha)
  have hstart := SendsAfter.start hf ha hw hbegin hactive
  have hend := execAll_preserves (fun e he _ _ hu hv => SendsAfter.exec hu hv (hes e he)) hstart hrun
  exact hend.busOut_of_execTxd hdone

/-- Settles O34, from the state an accepted TX_BEGIN answers and what its job holds. -/
theorem acceptedTxBeginStartsTheJob : Obligations.AcceptedTxBeginStartsTheJob := by
  intro s r hc ha hd hw hm
  obtain ⟨t, ht, hidx, heq⟩ := execTxb_accepted hc ha hd hw hm
  have hcfg : t.cfg = s.cfg := by rw [heq]
  have htx : t.tx = { startJob s.cfg r s.tx with idx := t.tx.idx } := by rw [heq]
  have hholds := holdsResponse_startJob hw hm hcfg htx
  refine ⟨t, ht, hholds, by rw [htx]; rfl, by rw [htx]; rfl, by rw [heq], by rw [heq], ?_, by rw [heq], by rw [heq],
    fun hr => ?_, fun k hk => ?_, hcfg, by rw [heq], by rw [heq], by rw [heq], by rw [heq], by rw [heq], by rw [heq],
    by rw [heq]⟩
  · rw [hidx, hholds.total, hcfg]
  · rw [htx, hr]
    rfl
  · rw [htx]
    exact read_startJob_of_ge s.cfg s.tx hw hk

/-- Settles O35: `Load` on a held response. -/
theorem txSpaceFillsTheFifo : Obligations.TxSpaceFillsTheFifo := by
  refine ⟨fun s h => if_neg fun he => h ((txSpaceEnabled_iff s).1 he), fun s r h ha hroom hi => ?_⟩
  obtain ⟨t, ht, hidx, heq⟩ := execTxs_of_holdsResponse h ha hroom hi
  rw [← hidx, BitVec.ofNat_toNat, BitVec.setWidth_eq, ← heq]
  exact ht

/-- Settles O37: a byte in the FIFO means reception is off, so its echo is discarded. -/
theorem echoIsNeverDecoded : Obligations.EchoIsNeverDecoded := by
  intro s t hs h
  obtain ⟨b, rest, hf, _⟩ := execLout_next h
  obtain ⟨hde, hoff⟩ := hs.transmitting_of_fifo (by rw [hf]; nofun)
  cases (execLout_of_rxOff hf hoff).symm.trans h
  exact ⟨hde, hde, b, rest, hf, rfl⟩

/-- Settles O39: only a job's start and the release of the bus write `tx_active`, `dir` or `rx_en`. -/
theorem onlyTxDoneEndsAJob : Obligations.OnlyTxDoneEndsAJob := by
  intro i s t h
  cases exec_transmitStep h with
  | kept same => simp +contextual [same.tx, same.rxEn, same.dir]
  | started free receiving active transmitting rxOff accepted =>
    simp [free, receiving, active, transmitting, rxOff, accepted]
  | loaded written => simp +contextual [written]
  | sent _ same => simp +contextual [same.tx, same.rxEn, same.dir]
  | released event done receiving rxOn => simp [event, done, receiving, rxOn]

/-- Settles O33, by the two guards of TX_BEGIN. -/
theorem rejectedTxBeginOnlyCounts : Obligations.RejectedTxBeginOnlyCounts := by
  intro s r
  refine ⟨execTxb_of_disabled, fun hc hmisuse => ?_, fun hc ha hd hm => ?_⟩
  · exact (execTxb_of_enabled hc).trans (if_pos ((txBeginMisuse_iff s _).2 hmisuse))
  · refine (execTxb_of_enabled hc).trans (if_neg fun hmisuse => ?_)
    rcases (txBeginMisuse_iff s _).1 hmisuse with h | h | h
    · exact absurd h (ne_true_of_eq_false ha)
    · exact absurd (hd.symm.trans h) nofun
    · exact absurd h (Nat.not_lt.2 hm)

/-- Settles O36, from LINE_OUT on an empty FIFO and on one with a head. -/
theorem lineOutSendsTheHead : Obligations.LineOutSendsTheHead :=
  ⟨fun _ hs hf => hs.transmitting_of_fifo hf, fun _ => ⟨execLout_nil, fun _ _ hf =>
    ⟨fun hecho => (execLout_cons hf).trans (if_neg (ne_true_of_eq_false hecho)),
      fun hecho => (execLout_cons hf).trans (if_pos hecho), execLout_of_rxOff hf⟩⟩⟩

/-- Settles O38, by the guard of TX_DONE. -/
theorem txDoneReleasesTheBus : Obligations.TxDoneReleasesTheBus := fun s =>
  ⟨fun h => if_neg fun he => h ((txDoneEnabled_iff s).1 he),
    fun ha hi hf => if_pos ((txDoneEnabled_iff s).2 ⟨ha, hi, hf⟩)⟩

end Sys2Proof.Machine
end

section
/-! CERTIFICATES. The bus direction controller (spec/43_direction.md). -/

namespace Sys2Proof.Machine

/-- R133: `enableTransmit` has no effect where `dir` already is TRANSMIT. -/
theorem enableTransmit_of_transmit {s : State} (h : s.dir = .transmit) : enableTransmit s = s := by
  rw [enableTransmit, ← h]

/-- R133: `enableReceive` has no effect where `dir` already is RECEIVE. -/
theorem enableReceive_of_receive {s : State} (h : s.dir = .receive) : enableReceive s = s := by
  rw [enableReceive, ← h]

/-- Settles O40: an operation leaves `dir` at its target, so a second call finds it there. -/
theorem directionOperations : Obligations.DirectionOperations := fun s =>
  ⟨rfl, (State.de_iff _).2 (enableTransmit_dir s), rfl, rfl,
    enableTransmit_of_transmit (enableTransmit_dir s), enableReceive_of_receive (enableReceive_dir s),
    enableTransmit_of_transmit, enableReceive_of_receive, s.de_iff⟩

end Sys2Proof.Machine
end

section
/-! CERTIFICATES. POP (spec/44_host.md). -/

namespace Sys2Proof.Machine

/-- R137, D31: on an empty queue POP answers NONE. -/
theorem execPop_nil {s : State} (hq : s.rq = []) : execPop s = .next (emit (.popResult none) s) := by
  rw [execPop, hq]

/-- R137: on a non-empty queue POP takes the head. -/
theorem execPop_cons {s : State} {f : Frame} {rest : List Frame} (hq : s.rq = f :: rest) :
    execPop s = .next (emit (.popResult (some f)) { s with rq := rest }) := by
  rw [execPop, hq]

/-- Settles O44, from POP on an empty queue and on one with a head. -/
theorem popReturnsTheOldestFrame : Obligations.PopReturnsTheOldestFrame :=
  fun _ => ⟨execPop_nil, fun _ _ => execPop_cons⟩

end Sys2Proof.Machine
end

section
/-! SUPPORT. What RX_BYTE, TICK and TX_BEGIN, the three events that raise errors, can do to the counters
(spec/60_exceptions.md R152). -/

namespace Sys2Proof.Machine

/-- The decode step has one outcome, and a completed frame is counted whether or not the queue has room. -/
theorem rxByte_cnt {b : Byte} {s t : State} (h : rxByte b s = .next t) :
    t.cnt = s.cnt ∨ t.cnt = s.cnt.count .checksum ∨ t.cnt = s.cnt.count .length ∨
      t.cnt = { s.cnt with frames := s.cnt.frames + 1 } ∨
      t.cnt = { s.cnt.count .queueFull with frames := s.cnt.frames + 1 } := by
  rcases rxByte_next h with ⟨_, rfl⟩ | ⟨_, _, r, o, _, rfl⟩
  · exact .inl rfl
  · rw [safetyNetAfterByte_cnt, rxExit_cnt]
    cases o with
    | pending => exact .inl rfl
    | errChecksum => exact .inr (.inl rfl)
    | errLength => exact .inr (.inr (.inl rfl))
    | ready f =>
      dsimp only
      split
      · exact .inr (.inr (.inr (.inr rfl)))
      · exact .inr (.inr (.inr (.inl rfl)))

theorem execTick_cnt {s t : State} (h : execTick s = .next t) : t.cnt = s.cnt ∨ t.cnt = s.cnt.count .desync := by
  rcases execTick_next h with ⟨_, rfl⟩ | ⟨_, _, _, rfl⟩ | ⟨_, _, _, rfl⟩
  · exact .inl rfl
  · exact .inr rfl
  · exact .inl rfl

theorem execTxb_cnt {r : Response} {s t : State} (h : execTxb r s = .next t) :
    t.cnt = s.cnt ∨ t.cnt = s.cnt.count .txMisuse := by
  rcases execTxb_next h with ⟨_, rfl⟩ | ⟨_, _, rfl⟩ | ⟨_, _, _, _, _, _, _, _, ht⟩
  · exact .inl rfl
  · exact .inr rfl
  · exact .inl (by rw [ht])

end Sys2Proof.Machine
end

section
/-! CERTIFICATES. The errors of an event, reception off during a job, and the events that complete
(spec/60_exceptions.md R152, R153, R155). -/

namespace Sys2Proof.Machine

/-! ### The errors of an event (R152) -/

theorem exec_cnt_of_not_counting {i : Instr} {s t : State} (h : exec i s = .next t) (hrst : i ≠ .rst)
    (hlout : i = .lout → s.rxEn = false) (hrxb : ∀ b, i ≠ .rxb b) (htick : i ≠ .tick) (htxb : ∀ r, i ≠ .txb r) :
    t.cnt = s.cnt := by
  obtain ⟨_, _, _, hcnt, _⟩ := eventsWriteOnlyTheirOwnState i s t h hrxb hrst hlout
  exact hcnt htick htxb

/-- The errors an event can raise. -/
def raisedBy : Instr → List EngineError
  | .rxb _ => [.checksum, .length, .queueFull]
  | .tick => [.desync]
  | .txb _ => [.txMisuse]
  | _ => []

/-- But for `cnt_frames`, an event leaves the counters or counts one error of its own. -/
theorem exec_cnt {i : Instr} {s t : State} (h : exec i s = .next t) (hrst : i ≠ .rst)
    (hlout : i = .lout → s.rxEn = false) :
    t.cnt = { s.cnt with frames := t.cnt.frames } ∨
      ∃ e ∈ raisedBy i, t.cnt = { s.cnt.count e with frames := t.cnt.frames } := by
  cases i with
  | rxb b =>
    rcases rxByte_cnt h with hk | hk | hk | hk | hk
    · exact .inl (by rw [hk])
    · exact .inr ⟨.checksum, by simp [raisedBy], by rw [hk]⟩
    · exact .inr ⟨.length, by simp [raisedBy], by rw [hk]⟩
    · exact .inl (by rw [hk])
    · exact .inr ⟨.queueFull, by simp [raisedBy], by rw [hk]⟩
  | tick =>
    rcases execTick_cnt h with hk | hk
    · exact .inl (by rw [hk])
    · exact .inr ⟨.desync, by simp [raisedBy], by rw [hk]⟩
  | txb r =>
    rcases execTxb_cnt h with hk | hk
    · exact .inl (by rw [hk])
    · exact .inr ⟨.txMisuse, by simp [raisedBy], by rw [hk]⟩
  | _ => exact .inl (by rw [exec_cnt_of_not_counting h hrst hlout nofun nofun nofun])

/-- Settles O48, from the errors each event can raise. -/
theorem oneErrorPerEvent : Obligations.OneErrorPerEvent := by
  intro i s t h hrst hlout
  rcases exec_cnt h hrst hlout with hk | ⟨e, he, hk⟩
  · exact .inl (by rw [hk])
  · rw [hk]
    cases i with
    | rxb b =>
      have hown : e = .checksum ∨ e = .length ∨ e = .queueFull := by simpa [raisedBy] using he
      refine .inr (.inl ⟨b, rfl, ?_⟩)
      rcases hown with rfl | rfl | rfl
      · exact .inl rfl
      · exact .inr (.inl rfl)
      · exact .inr (.inr rfl)
    | tick =>
      cases List.mem_singleton.1 he
      exact .inr (.inr (.inl ⟨rfl, rfl⟩))
    | txb r =>
      cases List.mem_singleton.1 he
      exact .inr (.inr (.inr ⟨r, rfl, rfl⟩))
    | _ => cases he

/-! ### Reception off during a job (R155) -/

/-- With reception off only `cnt_desync` (TICK) and `cnt_fault` (TXB) can count. -/
theorem exec_cnt_of_rxOff {i : Instr} {s t : State} (h : exec i s = .next t) (hrst : i ≠ .rst)
    (hoff : s.rxEn = false) :
    t.cnt = { s.cnt with desync := t.cnt.desync, fault := t.cnt.fault } := by
  cases i with
  | rxb b =>
    cases (rxByte_of_off (.inr hoff)).symm.trans h
    rfl
  | tick =>
    rcases execTick_cnt h with hk | hk
    · rw [hk]
    · rw [hk]
      rfl
  | txb r =>
    rcases execTxb_cnt h with hk | hk
    · rw [hk]
    · rw [hk]
      rfl
  | _ => rw [exec_cnt_of_not_counting h hrst (fun _ => hoff) nofun nofun nofun]

/-- With reception off only TICK and RESET write the receive registers and the timer. -/
theorem exec_receive_of_rxOff {i : Instr} {s t : State} (h : exec i s = .next t) (hrst : i ≠ .rst)
    (hoff : s.rxEn = false) (htick : i ≠ .tick) : t.rx = s.rx ∧ t.snt = s.snt := by
  by_cases hrxb : ∃ b, i = .rxb b
  · obtain ⟨b, rfl⟩ := hrxb
    cases (rxByte_of_off (.inr hoff)).symm.trans h
    exact ⟨rfl, rfl⟩
  · obtain ⟨hrx, _⟩ := eventsWriteOnlyTheirOwnState i s t h (not_exists.1 hrxb) hrst fun _ => hoff
    exact hrx htick

/-- Reception off and the bus driven, as a job holds them, with the counters of a received byte as they were in `s`. -/
structure ReceptionOffSince (s t : State) : Prop where
  rxOff : t.rxEn = false
  transmitting : t.dir = .transmit
  counters : t.cnt = { s.cnt with desync := t.cnt.desync, fault := t.cnt.fault }

theorem Inv.receptionOffSince_self {s : State} (h : Inv s) (ha : s.tx.active = true) : ReceptionOffSince s s :=
  ⟨h.r41.activeIffRxOff.1 ha, h.r41.activeIffTransmit.1 ha, rfl⟩

/-- Every event but TX_DONE and RESET keeps reception off. -/
theorem ReceptionOffSince.exec {i : Instr} {s t u : State} (hs : ReceptionOffSince s t) (h : exec i t = .next u)
    (hi : i ≠ .txd ∧ i ≠ .rst) : ReceptionOffSince s u := by
  have hcnt : u.cnt = { s.cnt with desync := u.cnt.desync, fault := u.cnt.fault } := by
    rw [exec_cnt_of_rxOff h hi.2 hs.rxOff, hs.counters]
  cases exec_transmitStep h with
  | kept same => exact ⟨same.rxEn.trans hs.rxOff, same.dir.trans hs.transmitting, hcnt⟩
  | started _ _ _ transmitting rxOff => exact ⟨rxOff, transmitting, hcnt⟩
  | loaded written => exact ⟨by rw [written]; exact hs.rxOff, by rw [written]; exact hs.transmitting, hcnt⟩
  | sent _ same => exact ⟨same.rxEn.trans hs.rxOff, same.dir.trans hs.transmitting, hcnt⟩
  | released event => exact absurd event (not_or.2 hi)

/-- With no TICK, TX_DONE or RESET among them, events from a state with reception off leave the receive side. -/
theorem execAll_receive_of_rxOff {es : List Instr} {s t : State} (hs : ReceptionOffSince s s)
    (hes : ∀ e ∈ es, e ≠ .txd ∧ e ≠ .rst) (htick : ∀ e ∈ es, e ≠ .tick) (h : execAll es s = .next t) :
    t.rx = s.rx ∧ t.snt = s.snt := by
  refine (execAll_preserves (P := fun u => ReceptionOffSince s u ∧ u.rx = s.rx ∧ u.snt = s.snt)
    (fun e he u v hu hv => ?_) ⟨hs, rfl, rfl⟩ h).2
  obtain ⟨hoff, hrx, hsnt⟩ := hu
  obtain ⟨hrx', hsnt'⟩ := exec_receive_of_rxOff hv (hes e he).2 hoff.rxOff (htick e he)
  exact ⟨hoff.exec hv (hes e he), hrx'.trans hrx, hsnt'.trans hsnt⟩

/-- Settles O43: a job holds reception off from event to event, and with it off no event but TICK reaches the receive
side. -/
theorem nothingIsReceivedDuringAJob : Obligations.NothingIsReceivedDuringAJob := by
  intro s s2 es hs ha hes hrun
  have hstart := hs.receptionOffSince_self ha
  obtain ⟨hoff, hdir, hcnt⟩ :=
    execAll_preserves (P := ReceptionOffSince s) (fun e he _ _ hu hv => hu.exec hv (hes e he)) hstart hrun
  refine ⟨hoff, hdir, ?_, ?_, ?_, ?_, fun htick => execAll_receive_of_rxOff hstart hes htick hrun⟩
  all_goals rw [hcnt]

/-! ### The events that complete (R153) -/

/-- Settles O50: an event that does not complete is not enabled, and one that is not enabled is refused. -/
theorem enabledEventsComplete : Obligations.EnabledEventsComplete := by
  intro i s hs _
  refine ⟨fun he => ?_, exec_refused_of_not_enabled⟩
  rcases exec_next_or_refused i hs.sidesOk with hnext | ⟨hoff, _⟩
  · exact hnext
  · exact absurd he (ne_true_of_eq_false hoff)

end Sys2Proof.Machine
end

section
/-! SUPPORT. Registers whose value no rule reads (spec/70_reset_and_hazards.md R167): two states that differ at most in
them, part by part, and each operation of a step answering alike on both. The events of a disabled engine (R169). -/

namespace Sys2Proof.Machine

/-! ### The parts of two states that differ only in unread registers -/

/-- Receive registers that agree on what the current frame has written. -/
structure SameRx (r q : RxRegs) : Prop where
  state : r.state = q.state
  address : r.state ≠ .idle → r.addr = q.addr ∧ r.acc = q.acc
  mtype : r.state = .awLen ∨ r.state = .awPayload ∨ r.state = .awCksum → r.mtype = q.mtype
  len : r.state = .awPayload ∨ r.state = .awCksum → r.len = q.len
  rem : r.state = .awPayload → r.rem = q.rem
  buf : ∀ k < r.received, Memory.read r.buf k = Memory.read q.buf k

/-- Timers that agree on `snt_count` while armed. -/
structure SameSnt (t u : Snt) : Prop where
  armed : t.armed = u.armed
  count : t.armed = true → t.count = u.count

/-- TxJobs that agree on the response of a job in flight. -/
structure SameTx (j k : TxJob) : Prop where
  active : j.active = k.active
  len : j.active = true → j.len = k.len
  mtype : j.active = true → j.len ≠ 0#8 → j.mtype = k.mtype
  buf : j.active = true → ∀ i < j.len.toNat, Memory.read j.buf i = Memory.read k.buf i
  total : j.active = true → j.total = k.total
  idx : j.active = true → j.idx = k.idx
  echo : j.echoPending = k.echoPending

/-- The second state of such a pair is the first with other registers in the three parts and another `free`. -/
theorem SameButUnread.parts {s t : State} (h : SameButUnread s t) :
    ∃ q u j n, t = { s with rx := q, snt := u, tx := j, free := n } ∧
      SameRx s.rx q ∧ SameSnt s.snt u ∧ SameTx s.tx j := by
  refine ⟨t.rx, t.snt, t.tx, t.free, ?_, ⟨h.rxState, h.rxAddr, h.rxType, h.rxLen, h.rxRem, h.rxBuf⟩,
    ⟨h.armed, h.count⟩, ⟨h.active, h.txLen, h.txType, h.txBuf, h.txTotal, h.txIdx, h.echo⟩⟩
  rw [h.cfg, h.rxEn, h.dir, h.cnt, h.rq, h.utxFifo, h.busOut, h.outputs, h.trace]

theorem SameButUnread.of_parts {s : State} {q : RxRegs} {u : Snt} {j : TxJob} {n : Nat} (hrx : SameRx s.rx q)
    (hsnt : SameSnt s.snt u) (htx : SameTx s.tx j) :
    SameButUnread s { s with rx := q, snt := u, tx := j, free := n } :=
  ⟨rfl, hrx.state, hrx.address, hrx.mtype, hrx.len, hrx.rem, hrx.buf, hsnt.armed, hsnt.count, rfl, rfl, htx.active,
    htx.len, htx.mtype, htx.buf, htx.total, htx.idx, htx.echo, rfl, rfl, rfl, rfl, rfl, rfl⟩

/-- In IDLE no receive register is read. -/
theorem SameRx.of_idle {r q : RxRegs} (hr : r.state = .idle) (hq : q.state = .idle) : SameRx r q := by
  constructor <;> simp [hr, hq, RxRegs.received]

/-- A disarmed timer's count is not read. -/
theorem SameSnt.of_disarmed {t u : Snt} (ht : t.armed = false) (hu : u.armed = false) : SameSnt t u :=
  ⟨ht.trans hu.symm, fun h => absurd h (ne_true_of_eq_false ht)⟩

/-- With no job in flight no register of the response is read. -/
theorem SameTx.of_noJob {j k : TxJob} (hj : j.active = false) (hk : k.active = false)
    (he : j.echoPending = k.echoPending) : SameTx j k := by
  constructor <;> simp [hj, hk, he]

/-- Two answers that agree: the same fault, or results in a relation. -/
def SameAnswer {α : Type} (R : α → α → Prop) (x y : Except Fault α) : Prop :=
  (∃ f, x = .error f ∧ y = .error f) ∨ ∃ a b, x = .ok a ∧ y = .ok b ∧ R a b

theorem SameAnswer.error {α : Type} {R : α → α → Prop} (f : Fault) : SameAnswer R (.error f) (.error f) :=
  .inl ⟨f, rfl, rfl⟩

theorem SameAnswer.ok {α : Type} {R : α → α → Prop} {a b : α} (h : R a b) : SameAnswer R (.ok a) (.ok b) :=
  .inr ⟨a, b, rfl, rfl, h⟩

/-! ### The receive side (spec/40_codec.md R87 to R93, spec/41_receive.md R103 to R111) -/

theorem Memory.read_write_congr {m m' : Memory} {i k : Nat} (b : Byte) (h : k ≠ i → m.read k = m'.read k) :
    (m.write i b).read k = (m'.write i b).read k := by
  by_cases hk : k = i
  · rw [hk, Memory.read_write_same, Memory.read_write_same]
  · rw [Memory.read_write_ne _ _ hk, Memory.read_write_ne _ _ hk, h hk]

/-- Answers of a decode step that agree: the same outcome, and after its exit (R103) registers alike. -/
def SameDecode (x y : RxRegs × Decoded) : Prop := x.2 = y.2 ∧ SameRx (exitToIdle x.1 x.2) (exitToIdle y.1 y.2)

/-- R90: the address and the type, which an empty frame reads, are written on both sides. -/
theorem decodeLength_same (c : Config) {r q : RxRegs} (b : Byte) (h : SameRx r q) (hs : r.state = .awLen) :
    SameDecode (decodeLength c r b) (decodeLength c q b) := by
  obtain ⟨haddr, hacc⟩ := h.address (by simp [hs])
  have hmtype := h.mtype (.inl hs)
  simp only [decodeLength, ← haddr, ← hacc, ← hmtype]
  split
  · exact ⟨rfl, .of_idle rfl rfl⟩
  split
  · exact ⟨rfl, .of_idle rfl rfl⟩
  · have hnone : ∀ k < b.toNat - b.toNat, Memory.read r.buf k = Memory.read q.buf k := by simp
    exact ⟨rfl, rfl, fun _ => ⟨rfl, rfl⟩, fun _ => rfl, fun _ => rfl, fun _ => rfl, hnone⟩

/-- R91: the payload byte goes to the same index on both sides, the first the frame has not written. (Where `rx_rem`
exceeds `rx_len`, outside R41, no byte counts as received before the write or after it.) -/
theorem decodePayload_same (c : Config) {r q : RxRegs} (b : Byte) (h : SameRx r q) (hs : r.state = .awPayload) :
    SameAnswer SameDecode (decodePayload c r b) (decodePayload c q b) := by
  obtain ⟨haddr, hacc⟩ := h.address (by simp [hs])
  have hmtype := h.mtype (.inr (.inl hs))
  have hlen := h.len (.inl hs)
  have hrem := h.rem hs
  have hbuf : ∀ k < r.len.toNat - r.rem.toNat, Memory.read r.buf k = Memory.read q.buf k := by
    simpa [RxRegs.received, hs] using h.buf
  have hwritten {k : Nat} (hk : k ≠ (r.len - r.rem).toNat → k < r.len.toNat - r.rem.toNat) :
      (r.buf.write (r.len - r.rem).toNat b).read k = (q.buf.write (r.len - r.rem).toNat b).read k :=
    Memory.read_write_congr b fun hne => hbuf k (hk hne)
  simp only [decodePayload, memWrite, ← hrem, ← hlen, ← hacc]
  by_cases hi : (r.len - r.rem).toNat < c.maxPayload
  · simp only [if_pos hi]
    by_cases hr : 1 < r.rem.toNat
    · simp only [if_pos hr]
      refine .ok ⟨rfl, h.state, fun _ => ⟨haddr, rfl⟩, fun _ => hmtype, fun _ => rfl, fun _ => rfl,
        fun k hk => hwritten ?_⟩
      simp only [exitToIdle, RxRegs.received, hs] at hk
      bv_omega
    · simp only [if_neg hr]
      refine .ok ⟨rfl, rfl, fun _ => ⟨haddr, rfl⟩, fun _ => hmtype, fun _ => rfl, fun _ => rfl,
        fun k hk => hwritten ?_⟩
      simp only [exitToIdle, RxRegs.received] at hk
      bv_omega
  · simp only [if_neg hi]
    exact .error _

/-- R92: the checksum byte is held to the same XOR, and the completed frame has the same bytes. -/
theorem decodeChecksum_same (c : Config) {r q : RxRegs} (b : Byte) (h : SameRx r q) (hs : r.state = .awCksum) :
    SameAnswer SameDecode (decodeChecksum c r b) (decodeChecksum c q b) := by
  obtain ⟨haddr, hacc⟩ := h.address (by simp [hs])
  have hmtype := h.mtype (.inr (.inr hs))
  have hlen := h.len (.inr hs)
  have hread : memReadRange .rxBuf c.maxPayload r.buf 0 r.len.toNat =
      memReadRange .rxBuf c.maxPayload q.buf 0 r.len.toNat :=
    memReadRange_congr fun k _ hk => h.buf k (by simpa [RxRegs.received, hs] using hk)
  simp only [decodeChecksum, ← hlen, ← hacc, ← haddr, ← hmtype, ← hread]
  split
  · cases memReadRange .rxBuf c.maxPayload r.buf 0 r.len.toNat with
    | error f => exact .error f
    | ok p => exact .ok ⟨rfl, .of_idle rfl rfl⟩
  · exact .ok ⟨rfl, .of_idle rfl rfl⟩

/-- R88 to R93: a register is read only in the states in which the frame has written it. -/
theorem decodeStep_same (c : Config) {r q : RxRegs} (b : Byte) (h : SameRx r q) :
    SameAnswer SameDecode (decodeStep c r b) (decodeStep c q b) := by
  have hnone : ∀ k < 0, Memory.read r.buf k = Memory.read q.buf k := by simp
  simp only [decodeStep, ← h.state]
  cases hs : r.state with
  | idle => exact .ok ⟨rfl, rfl, fun _ => ⟨rfl, rfl⟩, nofun, nofun, nofun, hnone⟩
  | awType =>
    obtain ⟨haddr, hacc⟩ := h.address (by simp [hs])
    exact .ok ⟨rfl, rfl, fun _ => ⟨haddr, congrArg (· ^^^ b) hacc⟩, fun _ => rfl, nofun, nofun, hnone⟩
  | awLen => exact .ok (decodeLength_same c b h hs)
  | awPayload => exact decodePayload_same c b h hs
  | awCksum => exact decodeChecksum_same c b h hs
  | frameReady | error | reserved => exact .ok ⟨rfl, .of_idle rfl rfl⟩

theorem sntAfterByte_same {t u : Snt} (c : Config) (prev now : RxState) (h : SameSnt t u) :
    SameSnt (sntAfterByte c prev now t) (sntAfterByte c prev now u) := by
  unfold sntAfterByte
  split
  · exact .of_disarmed rfl rfl
  split
  · exact ⟨rfl, fun _ => rfl⟩
  split
  · exact ⟨rfl, fun _ => rfl⟩
  · exact h

/-- The exit of a received byte reads none of the registers in question (R103 to R107). -/
theorem rxExit_same {s : State} {q : RxRegs} {u : Snt} {j : TxJob} {n : Nat} (o : Decoded)
    (hrx : SameRx (exitToIdle s.rx o) (exitToIdle q o)) (hsnt : SameSnt s.snt u) (htx : SameTx s.tx j) :
    SameButUnread (rxExit o s) (rxExit o { s with rx := q, snt := u, tx := j, free := n }) := by
  have hparts : rxExit o { s with rx := q, snt := u, tx := j, free := n } =
      { rxExit o s with rx := exitToIdle q o, snt := u, tx := j, free := n } := by
    rw [rxExit_frame, rxExit_rx, rxExit_cnt, rxExit_rq, rxExit_frame o s, rxExit_cnt, rxExit_rq]
  rw [hparts]
  exact .of_parts (by simpa using hrx) (by simpa using hsnt) (by simpa using htx)

theorem safetyNetAfterByte_same {s t : State} (prev : RxState) (h : SameButUnread s t) :
    SameButUnread (safetyNetAfterByte prev s) (safetyNetAfterByte prev t) := by
  obtain ⟨q, u, j, n, rfl, hrx, hsnt, htx⟩ := h.parts
  refine .of_parts hrx ?_ htx
  rw [← hrx.state]
  exact sntAfterByte_same s.cfg prev s.rx.state hsnt

theorem rxAccept_same {s t : State} (b : Byte) (h : SameButUnread s t) :
    SameResult (rxAccept b s) (rxAccept b t) := by
  obtain ⟨q, u, j, n, rfl, hrx, hsnt, htx⟩ := h.parts
  simp only [rxAccept, ← hrx.state]
  obtain ⟨f, hr, hq⟩ | ⟨⟨r', o⟩, ⟨q', _⟩, hr, hq, rfl, hrx'⟩ := decodeStep_same s.cfg b hrx
  · rw [hr, hq]
    rfl
  · rw [hr, hq]
    exact safetyNetAfterByte_same _ (rxExit_same o hrx' hsnt htx)

theorem rxByte_same {s t : State} (b : Byte) (h : SameButUnread s t) : SameResult (rxByte b s) (rxByte b t) := by
  simp only [rxByte, ← h.cfg, ← h.rxEn]
  split
  · exact h
  split
  · exact h
  · exact rxAccept_same b h

/-- TICK reads `snt_count` only while armed (R110). -/
theorem execTick_same {s t : State} (h : SameButUnread s t) : SameResult (execTick s) (execTick t) := by
  simp only [execTick, ← h.cfg, ← h.armed]
  split
  · exact h
  split
  · rename_i ha
    obtain ⟨q, u, j, n, rfl, hrx, hsnt, htx⟩ := h.parts
    simp only [← hsnt.count ha]
    split
    · exact .of_parts (.of_idle rfl rfl) (.of_disarmed rfl rfl) htx
    · exact .of_parts hrx ⟨rfl, fun _ => rfl⟩ htx
  · exact h

/-! ### The transmit side (spec/42_transmit.md, spec/40_codec.md R98) -/

/-- `tx_byte` reads the type and the buffer only where the response has them. -/
theorem txByte_same {j k : TxJob} (c : Config) (i : Nat) (h : SameTx j k) (ha : j.active = true) :
    txByte c j i = txByte c k i := by
  have hlen := h.len ha
  by_cases h0 : j.len = 0#8
  · simp only [txByte, ← hlen, if_pos h0]
  · have hall : memReadRange .txBuf c.maxPayload j.buf 0 j.len.toNat =
        memReadRange .txBuf c.maxPayload k.buf 0 j.len.toNat :=
      memReadRange_congr fun m _ hm => h.buf ha m (by omega)
    have hone (hi : i ≤ j.len.toNat + 1) :
        memRead .txBuf c.maxPayload j.buf (i - 2) = memRead .txBuf c.maxPayload k.buf (i - 2) := by
      simp only [memRead, h.buf ha (i - 2) (by bv_omega)]
    by_cases hi : i ≤ j.len.toNat + 1
    · simp only [txByte, ← hlen, ← h.mtype ha h0, if_pos hi, hone hi]
    · simp only [txByte, ← hlen, ← h.mtype ha h0, if_neg hi, hall]

/-- R121: the loop pushes the same bytes; it runs on the registers of a job in flight. -/
theorem loadLoop_same : ∀ (fuel : Nat) {s t : State}, SameButUnread s t → s.tx.active = true →
    SameAnswer SameButUnread (loadLoop fuel s) (loadLoop fuel t) := by
  intro fuel
  induction fuel with
  | zero => exact fun h _ => .ok h
  | succ fuel ih =>
    intro s t h ha
    obtain ⟨q, u, j, n, rfl, hrx, hsnt, htx⟩ := h.parts
    have hidx := htx.idx ha
    simp only [loadLoop, ← hidx, ← htx.total ha, ← txByte_same _ _ htx ha]
    split
    · cases txByte s.cfg s.tx s.tx.idx.toNat with
      | error f => exact .error f
      | ok b =>
        refine ih (.of_parts hrx hsnt ?_) ha
        exact ⟨htx.active, htx.len, htx.mtype, htx.buf, fun _ => rfl, fun _ => rfl, htx.echo⟩
    · exact .ok h

theorem load_same {s t : State} (h : SameButUnread s t) (ha : s.tx.active = true) :
    SameAnswer SameButUnread (load s) (load t) := by
  unfold load
  rw [← h.txTotal ha, ← h.txIdx ha]
  exact loadLoop_same _ h ha

theorem Memory.read_writeFrom_congr (m m' : Memory) {bs : List Byte} {i : Nat} (h : i < bs.length) :
    (m.writeFrom 0 bs).read i = (m'.writeFrom 0 bs).read i := by
  have hread (m : Memory) := Memory.read_writeFrom bs m 0 i _ (List.getElem?_eq_getElem h)
  simp only [Nat.zero_add] at hread
  rw [hread, hread]

/-- A new job is alike whatever the registers held before: it sends only bytes of its response (R120). -/
theorem startJob_same {r : Response} (c : Config) (j k : TxJob) (hw : r.wf = true) :
    SameTx (startJob c r j) (startJob c r k) := by
  cases r with
  | empty =>
    have hnone : ∀ i < 0, Memory.read j.buf i = Memory.read k.buf i := by simp
    exact ⟨rfl, fun _ => rfl, fun _ h0 => absurd rfl h0, fun _ => hnone, fun _ => rfl, fun _ => rfl, rfl⟩
  | data mtype len payload =>
    obtain ⟨_, hp⟩ := (Response.wf_data_iff mtype).1 hw
    exact ⟨rfl, fun _ => rfl, fun _ _ => rfl,
      fun _ i hi => Memory.read_writeFrom_congr j.buf k.buf (by rwa [List.length_take, hp, Nat.min_self]),
      fun _ => rfl, fun _ => rfl, rfl⟩

theorem raise_same {s t : State} (e : EngineError) (h : SameButUnread s t) :
    SameButUnread (raise e s) (raise e t) := by
  obtain ⟨q, u, j, n, rfl, hrx, hsnt, htx⟩ := h.parts
  exact .of_parts hrx hsnt htx

theorem emit_same {s t : State} (o : Output) (h : SameButUnread s t) : SameButUnread (emit o s) (emit o t) := by
  obtain ⟨q, u, j, n, rfl, hrx, hsnt, htx⟩ := h.parts
  exact .of_parts hrx hsnt htx

theorem txAccept_same {r : Response} {s t : State} (hw : r.wf = true) (h : SameButUnread s t) :
    SameResult (txAccept r s) (txAccept r t) := by
  obtain ⟨q, u, j, n, rfl, hrx, hsnt, htx⟩ := h.parts
  have hstart : SameButUnread (enableTransmit { s with tx := startJob s.cfg r s.tx, rxEn := false })
      (enableTransmit { s with rx := q, snt := u, tx := startJob s.cfg r j, free := n, rxEn := false }) :=
    .of_parts hrx hsnt (startJob_same s.cfg s.tx j hw)
  unfold txAccept
  obtain ⟨f, hs, ht⟩ | ⟨s', t', hs, ht, h'⟩ := load_same hstart rfl
  · rw [hs, ht]
    rfl
  · rw [hs, ht]
    exact emit_same _ h'

theorem txBeginMisuse_same {s t : State} (len : Byte) (h : SameButUnread s t) :
    txBeginMisuse t len = txBeginMisuse s len := by
  simp only [txBeginMisuse, h.active, h.dir, h.cfg]

theorem execTxb_same {r : Response} {s t : State} (hw : r.wf = true) (h : SameButUnread s t) :
    SameResult (execTxb r s) (execTxb r t) := by
  simp only [execTxb, ← h.cfg, txBeginMisuse_same _ h]
  split
  · exact emit_same _ h
  split
  · exact emit_same _ (raise_same _ h)
  · exact txAccept_same hw h

theorem execTxs_same {s t : State} (h : SameButUnread s t) : SameResult (execTxs s) (execTxs t) := by
  have he : txSpaceEnabled t = txSpaceEnabled s := by
    simp only [txSpaceEnabled, h.active, h.utxFifo, h.cfg]
  simp only [execTxs, he]
  split
  · rename_i hon
    obtain ⟨hactive, _⟩ := (txSpaceEnabled_iff s).1 hon
    obtain ⟨f, hs, ht⟩ | ⟨s', t', hs, ht, h'⟩ := load_same h hactive
    · rw [hs, ht]
      rfl
    · rw [hs, ht]
      exact h'
  · rfl

theorem execLout_same {s t : State} (h : SameButUnread s t) : SameResult (execLout s) (execLout t) := by
  cases hf : s.utxFifo with
  | nil =>
    rw [execLout_nil hf, execLout_nil (h.utxFifo ▸ hf)]
    rfl
  | cons b rest =>
    have hsent : SameButUnread { s with utxFifo := rest, busOut := s.busOut ++ [b] }
        { t with utxFifo := rest, busOut := t.busOut ++ [b] } := by
      obtain ⟨q, u, j, n, rfl, hrx, hsnt, htx⟩ := h.parts
      exact .of_parts hrx hsnt htx
    rw [execLout_cons hf, execLout_cons (h.utxFifo ▸ hf), show t.cfg.echo = s.cfg.echo by rw [h.cfg]]
    split
    · exact rxByte_same b hsent
    · exact hsent

/-- TX_DONE reads `tx_idx` and `tx_total` only of a job in flight (R125). -/
theorem execTxd_same {s t : State} (h : SameButUnread s t) : SameResult (execTxd s) (execTxd t) := by
  have he : txDoneEnabled t = txDoneEnabled s := by
    cases ha : s.tx.active with
    | false => simp only [txDoneEnabled, ← h.active, ha, Bool.false_and]
    | true => simp only [txDoneEnabled, ← h.active, ← h.txIdx ha, ← h.txTotal ha, ← h.utxFifo]
  simp only [execTxd, he]
  split
  · obtain ⟨q, u, j, n, rfl, hrx, hsnt, htx⟩ := h.parts
    exact .of_parts hrx hsnt (.of_noJob rfl rfl rfl)
  · rfl

/-! ### The host's events and RESET -/

theorem execPop_same {s t : State} (h : SameButUnread s t) : SameResult (execPop s) (execPop t) := by
  cases hq : s.rq with
  | nil =>
    rw [execPop_nil hq, execPop_nil (h.rq ▸ hq)]
    exact emit_same _ h
  | cons f rest =>
    rw [execPop_cons hq, execPop_cons (h.rq ▸ hq)]
    obtain ⟨q, u, j, n, rfl, hrx, hsnt, htx⟩ := h.parts
    exact emit_same _ (.of_parts hrx hsnt htx)

/-- RESET leaves unread what it leaves unspecified: with other free values its state differs there alone (R167). -/
theorem execRst_same {s t : State} (h : SameButUnread s t) : SameResult (execRst s) (execRst t) := by
  obtain ⟨q, u, j, n, rfl, -, -, -⟩ := h.parts
  exact .of_parts (.of_idle rfl rfl) (.of_disarmed rfl rfl) (.of_noJob rfl rfl rfl)

theorem exec_same {i : Instr} {s t : State} (hw : i.wf = true) (h : SameButUnread s t) :
    SameResult (exec i s) (exec i t) := by
  cases i with
  | rxb b => exact rxByte_same b h
  | tick => exact execTick_same h
  | txb r => exact execTxb_same hw h
  | arg b => rfl
  | txs => exact execTxs_same h
  | lout => exact execLout_same h
  | txd => exact execTxd_same h
  | pop => exact execPop_same h
  | stat sel =>
    show SameButUnread (emit (.statValue (statValueOf s.cnt sel)) s) (emit (.statValue (statValueOf t.cnt sel)) t)
    rw [h.cnt]
    exact emit_same _ h
  | rst => exact execRst_same h

/-! ### A disabled engine (R169) -/

theorem disabledAtReset_of_execRst {s t : State} (hoff : s.cfg.cfgEnable = false) (h : execRst s = .next t) :
    DisabledAtReset t := by
  cases h
  exact ⟨hoff, rfl, rfl, rfl, rfl, rfl, rfl, rfl, rfl, rfl⟩

section
variable {s : State} (h : DisabledAtReset s)
include h

theorem DisabledAtReset.withOutputs (os : List Output) : DisabledAtReset { s with outputs := os } :=
  ⟨h.off, h.idle, h.disarmed, h.rxOn, h.receiving, h.noJob, h.noEcho, h.counters, h.noFrames, h.noBytes⟩

theorem DisabledAtReset.exec_rxb (b : Byte) : exec (.rxb b) s = .next s := rxByte_of_off (.inl h.off)

theorem DisabledAtReset.exec_tick : exec .tick s = .next s := execTick_of_off (.inl h.off)

theorem DisabledAtReset.exec_txb (r : Response) :
    exec (.txb r) s = .next { s with outputs := s.outputs ++ [.txbStatus .rejected] } := execTxb_of_disabled h.off

theorem DisabledAtReset.exec_pop :
    exec .pop s = .next { s with outputs := s.outputs ++ [.popResult none] } := execPop_nil h.noFrames

theorem DisabledAtReset.exec_stat (sel : StatSel) :
    exec (.stat sel) s = .next { s with outputs := s.outputs ++ [.statValue 0] } := by
  have hzero : statValueOf s.cnt sel = 0 := by
    rw [h.counters]
    cases sel <;> rfl
  rw [← hzero]
  rfl

/-- The UART's three events wait for a job or for a byte in the FIFO. -/
theorem DisabledAtReset.uart_not_enabled {i : Instr} (hi : i = .txs ∨ i = .lout ∨ i = .txd) :
    enabled s i = false := by
  rcases hi with rfl | rfl | rfl <;> simp [enabled, h.noJob, h.noBytes]

theorem DisabledAtReset.exec_uart {i : Instr} (hi : i = .txs ∨ i = .lout ∨ i = .txd) :
    ∃ r, exec i s = .refused r := exec_refused_of_not_enabled (h.uart_not_enabled hi)

/-- No event leads out of the disabled reset state. -/
theorem DisabledAtReset.exec_next {i : Instr} {t : State} (ht : exec i s = .next t) :
    DisabledAtReset t ∧ t.busOut = s.busOut := by
  cases i with
  | rxb b =>
    cases (h.exec_rxb b).symm.trans ht
    exact ⟨h, rfl⟩
  | tick =>
    cases h.exec_tick.symm.trans ht
    exact ⟨h, rfl⟩
  | txb r =>
    cases (h.exec_txb r).symm.trans ht
    exact ⟨h.withOutputs _, rfl⟩
  | arg b => cases ht
  | txs =>
    obtain ⟨r, hr⟩ := h.exec_uart (.inl rfl)
    cases hr.symm.trans ht
  | lout =>
    obtain ⟨r, hr⟩ := h.exec_uart (.inr (.inl rfl))
    cases hr.symm.trans ht
  | txd =>
    obtain ⟨r, hr⟩ := h.exec_uart (.inr (.inr rfl))
    cases hr.symm.trans ht
  | pop =>
    cases h.exec_pop.symm.trans ht
    exact ⟨h.withOutputs _, rfl⟩
  | stat sel =>
    cases (h.exec_stat sel).symm.trans ht
    exact ⟨h.withOutputs _, rfl⟩
  | rst =>
    refine ⟨disabledAtReset_of_execRst h.off ht, ?_⟩
    cases ht
    rfl

end

end Sys2Proof.Machine
end

section
/-! CERTIFICATES. RESET and unread registers (spec/70_reset_and_hazards.md R167 to R169). -/

namespace Sys2Proof.Machine

/-- Settles O59: the same event is fetched on both sides, and every event answers alike. A decoded TX_BEGIN has the
payload its length says, so the new job sends no byte of the old `tx_buf`. -/
theorem unspecifiedRegistersAreNeverObserved : Obligations.UnspecifiedRegistersAreNeverObserved := by
  intro s t h
  cases hc : configOk s.cfg with
  | false =>
    rw [step_of_configOk_false hc, step_of_configOk_false (h.cfg ▸ hc)]
    rfl
  | true =>
    cases hd : decode s.trace with
    | error e =>
      rw [step_of_decode_error hc hd, step_of_decode_error (h.cfg ▸ hc) (h.trace ▸ hd)]
      rfl
    | ok item =>
      obtain ⟨i, rest⟩ := item
      rw [step_of_decode_ok hc hd, step_of_decode_ok (h.cfg ▸ hc) (h.trace ▸ hd)]
      obtain ⟨hw, _⟩ := decode_ok hd
      obtain ⟨q, u, j, n, rfl, hrx, hsnt, htx⟩ := h.parts
      exact exec_same hw (.of_parts hrx hsnt htx)

/-- Settles O54: RESET writes the values of R167, and there each event that completes changes at most the outputs or is
RESET again. -/
theorem disabledEngineIsInert : Obligations.DisabledEngineIsInert := by
  refine ⟨fun s hoff => ⟨_, rfl, disabledAtReset_of_execRst hoff rfl⟩, fun s h => ?_⟩
  have hde : s.de = false := by simp [State.de, h.receiving]
  exact ⟨h.exec_rxb, h.exec_tick, h.exec_txb, h.exec_pop, h.exec_stat, h.exec_uart (.inl rfl),
    h.exec_uart (.inr (.inl rfl)), h.exec_uart (.inr (.inr rfl)), hde, fun _ _ ht => h.exec_next ht⟩

/-- Settles O52: RESET writes these registers in every state, whatever free values the others take. -/
theorem resetSetsTheResetValues : Obligations.ResetSetsTheResetValues :=
  fun _ => ⟨_, rfl, rfl, rfl, rfl, rfl, rfl, rfl, rfl, rfl, rfl, rfl⟩

/-- Settles O53: RESET leaves IDLE, a disarmed timer and no job, so the power-on state differs from it in unread
registers only. -/
theorem powerOnIsAReset : Obligations.PowerOnIsAReset :=
  fun _ => ⟨_, rfl, .of_parts (.of_idle rfl rfl) (.of_disarmed rfl rfl) (.of_noJob rfl rfl rfl)⟩

end Sys2Proof.Machine
end

section
/-! SUPPORT. A job in flight moves on by the UART's LINE_OUT and TX_SPACE alone (spec/42_transmit.md R121 to R125). -/

namespace Sys2Proof.Machine

/-- The job's events still to come: a byte in the FIFO leaves by a LINE_OUT, one not yet loaded needs a TX_SPACE
before it. -/
def uartWork (s : State) : Nat := 2 * (s.tx.total.toNat - s.tx.idx.toNat) + s.utxFifo.length

/-- A byte in the FIFO leaves by LINE_OUT, and the job goes on with one byte less. -/
theorem execLout_uartWork_lt {s : State} (h : Inv s) (hf : s.utxFifo ≠ []) :
    ∃ t, exec .lout s = .next t ∧ t.tx = s.tx ∧ uartWork t < uartWork s := by
  obtain ⟨b, rest, hcons⟩ := List.exists_cons_of_ne_nil hf
  obtain ⟨_, hoff⟩ := h.transmitting_of_fifo hf
  refine ⟨_, execLout_of_rxOff hcons hoff, rfl, ?_⟩
  simp only [uartWork, hcons, List.length_cons]
  omega

/-- With the FIFO empty and a byte still to load, TX_SPACE is enabled and loads at least one. -/
theorem execTxs_uartWork_lt {s : State} (h : Inv s) (ha : s.tx.active = true) (hf : s.utxFifo = [])
    (hi : s.tx.idx.toNat < s.tx.total.toNat) :
    ∃ t, exec .txs s = .next t ∧ t.tx.active = true ∧ uartWork t < uartWork s := by
  have hdepth : 0 < s.cfg.txFifoDepth := by
    obtain ⟨_, _, _, _, hne⟩ := (configOk_iff s.cfg).1 h.config
    exact Nat.pos_of_ne_zero hne
  have hroom : s.utxFifo.length < s.cfg.txFifoDepth := by rwa [hf]
  obtain ⟨t, ht⟩ := execTxs_total ((txSpaceEnabled_iff s).2 ⟨ha, hroom⟩) (h.txLen ha)
  obtain ⟨_, _, bs, hlen, hidx, heq, _⟩ := execTxs_next ht
  refine ⟨t, ht, by rw [heq]; exact ha, ?_⟩
  have htotal : t.tx.total = s.tx.total := by rw [heq]
  have hfifo : t.utxFifo = bs := by rw [heq, hf, List.nil_append]
  rw [hf, List.length_nil] at hlen
  simp only [uartWork, htotal, hfifo, hidx, hf, List.length_nil]
  omega

/-- A job with bytes left to load or to send has a LINE_OUT or a TX_SPACE that brings it nearer its end. -/
theorem exists_uartEvent {s : State} (h : Inv s) (ha : s.tx.active = true) (hw : uartWork s ≠ 0) :
    ∃ (e : Instr) (t : State), (e = .lout ∨ e = .txs) ∧ exec e s = .next t ∧ t.tx.active = true ∧
      uartWork t < uartWork s := by
  by_cases hf : s.utxFifo = []
  · have hi : s.tx.idx.toNat < s.tx.total.toNat := by
      simp only [uartWork, hf, List.length_nil] at hw
      omega
    obtain ⟨t, ht, hta, hlt⟩ := execTxs_uartWork_lt h ha hf hi
    exact ⟨.txs, t, .inr rfl, ht, hta, hlt⟩
  · obtain ⟨t, ht, htx, hlt⟩ := execLout_uartWork_lt h hf
    exact ⟨.lout, t, .inl rfl, ht, htx ▸ ha, hlt⟩

/-- A job with nothing left to load or to send meets the condition of TX_DONE (R125). -/
theorem txDone_of_uartWork_eq_zero {s : State} (h : Inv s) (ha : s.tx.active = true) (hw : uartWork s = 0) :
    s.tx.idx = s.tx.total ∧ s.utxFifo = [] := by
  have hle := h.r41.idxLeTotal ha
  unfold uartWork at hw
  exact ⟨BitVec.eq_of_toNat_eq (by omega), List.eq_nil_of_length_eq_zero (by omega)⟩

/-- LINE_OUT and TX_SPACE events bring every job to the condition of TX_DONE: each of them lessens `uartWork`. -/
theorem exists_uartEvents {s : State} (h : Inv s) (ha : s.tx.active = true) :
    ∃ (es : List Instr) (t : State), (∀ e ∈ es, e = .lout ∨ e = .txs) ∧ execAll es s = .next t ∧
      t.tx.active = true ∧ t.tx.idx = t.tx.total ∧ t.utxFifo = [] := by
  induction hn : uartWork s using Nat.strong_induction_on generalizing s with
  | h n ih =>
    by_cases hw : uartWork s = 0
    · exact ⟨[], s, nofun, rfl, ha, txDone_of_uartWork_eq_zero h ha hw⟩
    · obtain ⟨e, u, he, hu, hua, hlt⟩ := exists_uartEvent h ha hw
      obtain ⟨es, t, hes, hrun, hend⟩ := ih _ (hn ▸ hlt) (exec_inv h hu) hua rfl
      refine ⟨e :: es, t, List.forall_mem_cons.2 ⟨he, hes⟩, ?_, hend⟩
      rw [← hrun]
      exact execAll_append [e] es s u ((execAll_singleton e s).trans hu)

end Sys2Proof.Machine
end

section
/-! CERTIFICATES. The round trip of the event encoding (spec/30_encoding.md R76 to R81), the recovery from a partial
frame (spec/95_test_vectors.md EX8) and the completion of a job (spec/42_transmit.md). -/

namespace Sys2Proof.Machine

/-- Settles O42: bytes are sent and loaded until none is left, and TX_DONE then releases the bus. -/
theorem everyJobCanFinish : Obligations.EveryJobCanFinish := by
  intro s h ha
  obtain ⟨es, t, hes, hrun, hta, hidx, hf⟩ := exists_uartEvents h ha
  obtain ⟨_, hdone⟩ := txDoneReleasesTheBus t
  have htxd := (execAll_singleton .txd t).trans (hdone hta hidx hf)
  exact ⟨es, _, hes, (execAll_append _ _ _ _ hrun).trans htxd, rfl, rfl, rfl, hf⟩

/-- Settles O31: the invariant has the window armed inside a frame, so the TICKs fire it (O30), and the frame then
arrives in IDLE with room in the queue (O25). -/
theorem desyncRecoversAndTheNextFrameDecodes : Obligations.DesyncRecoversAndTheNextFrameDecodes := by
  intro s ty p h hen hrx hbusy hp hroom
  have harmed := h.r41.armedIffBusy.2 hbusy
  obtain ⟨hcount, _⟩ := h.r41.countInWindow harmed
  obtain ⟨_, hfire⟩ := safetyNetFiresAfterItsWindow s hen harmed hcount
  obtain ⟨t, ht, hidle, _, hrq, hcnt, _⟩ := goodFrameReachesTheQueue
    { s with rx := { s.rx with state := .idle }, snt := ⟨false, 0⟩, cnt := { s.cnt with desync := s.cnt.desync + 1 } }
    s.cfg.myAddr ty p h.config hen hrx rfl hp
  refine ⟨t, (execAll_append _ _ _ _ hfire).trans ht, hidle, ?_, ?_⟩
  · rw [hrq, if_pos ⟨.inl rfl, hroom⟩]
  · rw [hcnt, if_neg fun hfull => Nat.not_le.2 hroom hfull.2]

/-- Settles O2, by the decoder on the encoder's words. -/
theorem decodeOfEncodeIsTheEvent : Obligations.DecodeOfEncodeIsTheEvent := fun _ hwf rest => decode_encode hwf rest

/-- Settles O3, by what the decoder can have answered. -/
theorem decodedWordsAreTheEncoding : Obligations.DecodedWordsAreTheEncoding := fun _ _ _ h => decode_ok h

/-- Settles O1: the accepted words are those of well-formed events, and the refused ones reach their refusal. -/
theorem eventWordsOfTheTableDecode : Obligations.EventWordsOfTheTableDecode :=
  ⟨decode_encode (i := .rxb 0xAA) rfl [], decode_encode (i := .tick) rfl [], decode_encode (i := .txb .empty) rfl [],
    decode_encode (i := .txb (.data 0x01 2 [0xAA, 0xBB])) rfl [], decode_encode (i := .arg 0x01) rfl [],
    decode_encode (i := .txs) rfl [], decode_encode (i := .lout) rfl [], decode_encode (i := .txd) rfl [],
    decode_encode (i := .pop) rfl [], decode_encode (i := .stat .qovf) rfl [], decode_encode (i := .rst) rfl [],
    rfl, rfl, rfl, rfl, rfl, rfl, rfl, rfl⟩

end Sys2Proof.Machine
end
